-- ==== Sys2Proof/Word.lean ====
section
/-! DEFINITION. Bytes, byte strings and 32-bit words (00 R10, R11). -/

namespace Sys2Proof

/-- A byte, `0x00..0xFF`; bit 0 is the least significant (R10, R11). -/
abbrev Byte := BitVec 8

/-- A 32-bit command or response word; bit 0 is the least significant (R11). -/
abbrev Word := BitVec 32

/-- A byte string: `X[0]` is the head, `X || Y` is `X ++ Y`, `""` is `[]` (R10). -/
abbrev Bytes := List Byte

end Sys2Proof
end

