-- ==== Sys2Proof/Config.lean ====
section
/-! DEFINITION. What is fixed when the engine is instantiated: the permutation descriptor `P` (00 R7, 40 R80 to R89),
and the free values of reset during a command (70 R171). -/

namespace Sys2Proof

/-- The width and the five rates of a descriptor, in bytes (R7). -/
structure Dimensions where
  /-- `W`, the state size -/
  w : Nat
  /-- `r_absorb`, the absorb rate in Hash mode -/
  rAbsorb : Nat
  /-- `r_squeeze`, the squeeze rate in Hash mode -/
  rSqueeze : Nat
  /-- `r_keyed_absorb`, the absorb rate in Keyed mode -/
  rKeyedAbsorb : Nat
  /-- `r_keyed_squeeze`, the squeeze and crypt rate in Keyed mode -/
  rKeyedSqueeze : Nat
  /-- `r_ratchet`, the bytes RATCHET squeezes and absorbs back -/
  rRatchet : Nat
deriving DecidableEq, Repr

/-- The constraint on one rate: `0 < r <= W-1` (R7). -/
abbrev Dimensions.RateOk (d : Dimensions) (r : Nat) : Prop := 0 < r ∧ r ≤ d.w - 1

/-- "all rates satisfy `0 < r ≤ W − 1`" (R7); `W >= 2` follows. -/
abbrev Dimensions.Legal (d : Dimensions) : Prop :=
  d.RateOk d.rAbsorb ∧ d.RateOk d.rSqueeze ∧ d.RateOk d.rKeyedAbsorb ∧ d.RateOk d.rKeyedSqueeze ∧
    d.RateOk d.rRatchet

/-- The permutation descriptor `P = (W, r_absorb, r_squeeze, r_keyed_absorb, r_keyed_squeeze, r_ratchet, f)` (R7).
Its type carries the constraint (93 U7: a descriptor that breaks it is not an engine). `f` is any total function from
`W`-byte strings to `W`-byte strings; nothing else is assumed of it, not even that it is a bijection (40 R81).
The default values only show that the type is not empty. -/
structure Descriptor extends Dimensions where
  w := 48
  rAbsorb := 44
  rSqueeze := 24
  rKeyedAbsorb := 44
  rKeyedSqueeze := 24
  rRatchet := 16
  /-- what the permutation block answers to the buffer it is sent -/
  f : Bytes → Bytes := id
  legal : toDimensions.Legal := by decide
  f_length : ∀ b : Bytes, b.length = w → (f b).length = w := by intro b h; exact h
deriving Inhabited

/-- The descriptor this engine is instantiated with (40 R83; 92 D1, D27: an open parameter). A constant with no body:
whatever is proved of it holds for every legal descriptor. Log entry 1. -/
opaque Config.P : Descriptor

/-- The free values of a reset during a command (70 R171: how much of the output was delivered "is not specified").
Applied to `State.freeCount`; a constant with no body. Log entry 7. -/
opaque Config.freeNat : Nat → Nat

/-- `LMAX`, the longest string one command carries: `2^24 - 1` (R8). -/
def Config.lmax : Nat := 16777215

/-- The longest key, key identifier and counter of INIT_KEYED (R8). -/
def Config.kmax : Nat := 255

/-- Xoodoo[12], "Xoodyak" (R84). -/
def Dimensions.xoodoo12 : Dimensions := ⟨48, 44, 24, 44, 24, 16⟩

/-- Keccak-p[200] "M14", which the source calls illustrative (R85). -/
def Dimensions.keccak200M14 : Dimensions := ⟨25, 16, 16, 24, 24, 16⟩

/-- Keccak-p[1600] "K12", which the source calls illustrative (R86). -/
def Dimensions.keccak1600K12 : Dimensions := ⟨200, 168, 168, 168, 168, 128⟩

/-- Keccak-p[400]: only the width is known, the rates are open (R87). -/
def Dimensions.keccak400 (rAbsorb rSqueeze rKeyedAbsorb rKeyedSqueeze rRatchet : Nat) : Dimensions :=
  ⟨50, rAbsorb, rSqueeze, rKeyedAbsorb, rKeyedSqueeze, rRatchet⟩

/-- Keccak-p[800]: only the width is known, the rates are open (R87). -/
def Dimensions.keccak800 (rAbsorb rSqueeze rKeyedAbsorb rKeyedSqueeze rRatchet : Nat) : Dimensions :=
  ⟨100, rAbsorb, rSqueeze, rKeyedAbsorb, rKeyedSqueeze, rRatchet⟩

end Sys2Proof
end

