-- ==== Sys2Proof/Syntax.lean ====
section
/-! DEFINITION. The nine commands (30 R63), one constructor per row of the opcode table. Operands are the byte counts of
the length fields, used as they stand (R62): natural numbers, never wrapped (R10). The byte strings themselves are payload. -/

namespace Sys2Proof

inductive Instr where
  /-- `new_hash(P)` (R111) -/
  | initHash
  /-- `new_keyed(P, key, id, counter)`: the lengths KLEN, IDLEN, CLEN (R112) -/
  | initKeyed (klen idlen clen : Nat)
  /-- `absorb(bytes)`: LEN (R120) -/
  | absorb (len : Nat)
  /-- `encrypt(bytes)`: LEN (R130) -/
  | encrypt (len : Nat)
  /-- `decrypt(bytes)`: LEN (R131) -/
  | decrypt (len : Nat)
  /-- `squeeze(n)`: LEN (R122) -/
  | squeeze (len : Nat)
  /-- `squeeze_key(n)`: LEN (R123) -/
  | squeezeKey (len : Nat)
  /-- `ratchet()` (R133) -/
  | ratchet
  /-- teardown (R114) -/
  | zeroize
deriving DecidableEq, Repr

end Sys2Proof
end

