-- ==== Sys2Proof/WellFormed.lean ====
section
/-! DEFINITION. Which commands an assembler accepts: every length fits its field (00 R8, 30 R71). -/

namespace Sys2Proof

/-- A length that fits `ARG` = `c[23:0]` (R8, R61). -/
def lenFits (n : Nat) : Bool := n ≤ Config.lmax

/-- A length that fits an 8-bit field of format `K` (R8, R61). -/
def klenFits (n : Nat) : Bool := n ≤ Config.kmax

/-- "An assembler must refuse operands whose length does not fit its field" (R71). -/
def Instr.wf : Instr → Bool
  | .initHash => true
  | .initKeyed klen idlen clen => klenFits klen && klenFits idlen && klenFits clen
  | .absorb len => lenFits len
  | .encrypt len => lenFits len
  | .decrypt len => lenFits len
  | .squeeze len => lenFits len
  | .squeezeKey len => lenFits len
  | .ratchet => true
  | .zeroize => true

end Sys2Proof
end

