-- ==== Sys2Proof/Decode.lean ====
section
/-! DEFINITION. Decoding and encoding of command words (30 R60 to R69), total on words and on bytes. -/

namespace Sys2Proof

/-- Why a word selects no operation (R67), or why there is no word. -/
inductive Illegal where
  /-- `RSV != 0` (R67) -/
  | reservedBits
  /-- `OPC` is 0x0 or 0xA to 0xF (R67) -/
  | reservedOpcode
  /-- format `N` with `ARG != 0` (R67) -/
  | nonzeroArgument
  /-- fewer than the four bytes of a word (R60) -/
  | truncated
deriving DecidableEq, Repr

/-- What a word decodes to. -/
inductive Decoded where
  | instr (i : Instr)
  | illegal (why : Illegal)
deriving DecidableEq, Repr

/-- `OPC = c[31:28]` (R61). -/
def opcOf (c : Word) : Nat := (c.extractLsb' 28 4).toNat

/-- `RSV = c[27:24]` (R61). -/
def rsvOf (c : Word) : Nat := (c.extractLsb' 24 4).toNat

/-- `ARG = c[23:0]`, which is `LEN` in format `L` (R61). -/
def argOf (c : Word) : Nat := (c.extractLsb' 0 24).toNat

/-- `KLEN = c[7:0]` (R61). -/
def klenOf (c : Word) : Nat := (c.extractLsb' 0 8).toNat

/-- `IDLEN = c[15:8]` (R61). -/
def idlenOf (c : Word) : Nat := (c.extractLsb' 8 8).toNat

/-- `CLEN = c[23:16]` (R61). -/
def clenOf (c : Word) : Nat := (c.extractLsb' 16 8).toNat

/-- A format `N` operation: `ARG` must be 0 (R61). -/
def decodeNoArg (c : Word) (i : Instr) : Decoded :=
  if argOf c = 0 then .instr i else .illegal .nonzeroArgument

/-- `decode(c)` (R69). -/
def decode (c : Word) : Decoded :=
  if rsvOf c ≠ 0 then .illegal .reservedBits
  else match opcOf c with
    | 0x1 => decodeNoArg c .initHash
    | 0x2 => .instr (.initKeyed (klenOf c) (idlenOf c) (clenOf c))
    | 0x3 => .instr (.absorb (argOf c))
    | 0x4 => .instr (.encrypt (argOf c))
    | 0x5 => .instr (.decrypt (argOf c))
    | 0x6 => .instr (.squeeze (argOf c))
    | 0x7 => .instr (.squeezeKey (argOf c))
    | 0x8 => decodeNoArg c .ratchet
    | 0x9 => decodeNoArg c .zeroize
    | _ => .illegal .reservedOpcode

/-- A 32-bit word from four bytes, least significant byte first (20 R42, 92 D23). -/
def wordOfBytes (b0 b1 b2 b3 : Byte) : Word := b3 ++ b2 ++ b1 ++ b0

/-- The four bytes of a word, least significant byte first (20 R42, 92 D23). -/
def bytesOfWord (c : Word) : Bytes :=
  [c.extractLsb' 0 8, c.extractLsb' 8 8, c.extractLsb' 16 8, c.extractLsb' 24 8]

/-- Decoding a byte string: its first word, and what is left of it. Every command is one word (R60). -/
def decodeBytes : Bytes → Decoded × Bytes
  | b0 :: b1 :: b2 :: b3 :: rest => (decode (wordOfBytes b0 b1 b2 b3), rest)
  | short => (.illegal .truncated, short)

/-- The instruction the decoder reads from the word whose table bits are `w`. -/
def decodeTableWord (nbits w : Nat) : Option Instr :=
  if w % 2 ^ nbits < 2 ^ 32 then
    match (decodeBytes (bytesOfWord (BitVec.ofNat 32 (w % 2 ^ nbits)))).1 with
    | .instr i => some i
    | .illegal _ => none
  else none

/-- A command word from `OPC` (bits 31:28) and `ARG` (bits 23:0), with `RSV = 0` (R61). -/
def commandWord (opc arg : Nat) : Word := BitVec.ofNat 32 (opc * 2 ^ 28 + arg)

/-- `ARG` of format `K`: `CLEN<<16 | IDLEN<<8 | KLEN` (R61, R71). -/
def keyedArg (klen idlen clen : Nat) : Nat := clen * 65536 + idlen * 256 + klen

/-- The word of a well-formed command (R71). -/
def encode : Instr → Word
  | .initHash => commandWord 0x1 0
  | .initKeyed klen idlen clen => commandWord 0x2 (keyedArg klen idlen clen)
  | .absorb len => commandWord 0x3 len
  | .encrypt len => commandWord 0x4 len
  | .decrypt len => commandWord 0x5 len
  | .squeeze len => commandWord 0x6 len
  | .squeezeKey len => commandWord 0x7 len
  | .ratchet => commandWord 0x8 0
  | .zeroize => commandWord 0x9 0

/-- The name of an operation in R63. -/
def mnemonicOf : Instr → String
  | .initHash => "INIT_HASH"
  | .initKeyed _ _ _ => "INIT_KEYED"
  | .absorb _ => "ABSORB"
  | .encrypt _ => "ENCRYPT"
  | .decrypt _ => "DECRYPT"
  | .squeeze _ => "SQUEEZE"
  | .squeezeKey _ => "SQUEEZE_KEY"
  | .ratchet => "RATCHET"
  | .zeroize => "ZEROIZE"

/-- A row of the opcode map: a word `c` selects it iff `c & mask = pattern` (R63). -/
structure OpcodeRow where
  mnemonic : String
  pattern : Word
  mask : Word
deriving DecidableEq, Repr

/-- `c & mask = match` (R63). -/
def OpcodeRow.selects (row : OpcodeRow) (c : Word) : Bool := c &&& row.mask == row.pattern

/-- The opcode map (R63). -/
def opcodeTable : List OpcodeRow :=
  [⟨"INIT_HASH", 0x10000000#32, 0xFFFFFFFF#32⟩,
   ⟨"INIT_KEYED", 0x20000000#32, 0xFF000000#32⟩,
   ⟨"ABSORB", 0x30000000#32, 0xFF000000#32⟩,
   ⟨"ENCRYPT", 0x40000000#32, 0xFF000000#32⟩,
   ⟨"DECRYPT", 0x50000000#32, 0xFF000000#32⟩,
   ⟨"SQUEEZE", 0x60000000#32, 0xFF000000#32⟩,
   ⟨"SQUEEZE_KEY", 0x70000000#32, 0xFF000000#32⟩,
   ⟨"RATCHET", 0x80000000#32, 0xFFFFFFFF#32⟩,
   ⟨"ZEROIZE", 0x90000000#32, 0xFFFFFFFF#32⟩]

end Sys2Proof
end

