-- ==== Sys2Proof/Machine/State.lean ====
section
/-! DEFINITION. The state of one engine (10 R20), the streams of its ports (20 R41), and the state after reset (10 R32). -/

namespace Sys2Proof.Machine

/-- "whether the last transition was a `Down` (input was XORed in) or an `Up` (output was extracted)" (R22). -/
inductive Phase where
  | up
  | down
deriving DecidableEq, Repr

/-- The operating mode, set at construction (R23). -/
inductive Mode where
  | hash
  | keyed
deriving DecidableEq, Repr

/-- What the host does at the command port and at `RST` (20 R41, 70 R170, R171), in the order it does it. -/
inductive HostInput where
  /-- a word on `CMD` -/
  | command (c : Word)
  /-- `RST` while no command is executing (R170) -/
  | reset
  /-- a word on `CMD`, and `RST` before its response is delivered (R171) -/
  | resetDuring (c : Word)
deriving DecidableEq, Repr

/-- The seven elements of R20, then the port streams of R41, then the model's own count of used free values. -/
structure State where
  /-- `buf`: entry `i` is `buf[i]`, `W` entries (R21) -/
  buf : Bytes
  /-- `phase` (R22) -/
  phase : Phase
  /-- `mode` (R23) -/
  mode : Mode
  /-- `absorb_rate` (R24) -/
  absorbRate : Nat
  /-- `squeeze_rate` (R24) -/
  squeezeRate : Nat
  /-- `valid` (R25) -/
  valid : Bool
  /-- `scratch`, `r_ratchet` bytes (R26) -/
  scratch : Bytes
  /-- what the host still does on `CMD` and `RST`, next first (R41) -/
  cmd : List HostInput
  /-- bytes on `DIN` not yet taken, next first (R41, R175) -/
  din : Bytes
  /-- bytes delivered on `DOUT`, oldest first (R41) -/
  dout : Bytes
  /-- words delivered on `RSP`, oldest first (R41) -/
  rsp : List Word
  /-- strings sent on `PERM`, oldest first (R41, R53) -/
  perm : List Bytes
  /-- how many free values the run has used; the model's own field, log entry 7 -/
  freeCount : Nat
deriving DecidableEq, Repr

/-- Why the machine stops. -/
inductive Fault where
  /-- Raised by INIT_KEYED, ABSORB, ENCRYPT and DECRYPT when `DIN` holds fewer than `PayloadLen` bytes: "the command
  waits for the rest for ever (stuck, not an error)" (70 R175, 93 U8). Safe: the hardware does nothing either. -/
  | stuckAwaitingPayload
deriving DecidableEq, Repr

/-- Why an instruction has no meaning in the model. -/
inductive Refusal where
  /-- Raised by an arm of exec that has no meaning yet; none is left. Safe: nothing is claimed of such an arm. -/
  | notModelled (mnemonic : String)
deriving DecidableEq, Repr

/-- The state after reset of an engine over the descriptor `P` (R32): every element zero, and nothing on any port. -/
def State.resetOf (P : Descriptor) : State where
  buf := List.replicate P.w 0#8
  phase := .up
  mode := .hash
  absorbRate := 0
  squeezeRate := 0
  valid := false
  scratch := List.replicate P.rRatchet 0#8
  cmd := []
  din := []
  dout := []
  rsp := []
  perm := []
  freeCount := 0

/-- The machine right after reset (R32, 70 R170). -/
def State.reset : State := State.resetOf Config.P

end Sys2Proof.Machine
end

