-- ==== Sys2Proof/Machine/Flags.lean ====
section
/-! DEFINITION. Status codes, the bits of the flags, and the response word (30 R66, 10 R28, R29). -/

namespace Sys2Proof.Machine

/-- The status a command ends with (30 R66). -/
inductive Status where
  /-- the command did what its rule says -/
  | ok
  /-- INIT_KEYED with `KLEN + IDLEN + 1 > r_keyed_absorb` (60 R151) -/
  | errInvalidKey
  /-- the word selects no operation (60 R154) -/
  | errIllegal
  /-- an operation while no instance exists (60 R152) -/
  | errNoInstance
  /-- ENCRYPT, DECRYPT or RATCHET in Hash mode (60 R153) -/
  | errMode
deriving DecidableEq, Repr

/-- The code of a status, bits 7:0 of the response (30 R66). -/
def statusCode : Status → Nat
  | .ok => 0x00
  | .errInvalidKey => 0x01
  | .errIllegal => 0x02
  | .errNoInstance => 0x03
  | .errMode => 0x04

/-- `valid` as a bit (10 R20). -/
def validBit (v : Bool) : Nat := if v then 1 else 0

/-- `mode` as a bit: `Hash` = 0, `Keyed` = 1 (10 R20). -/
def modeBit : Mode → Nat
  | .hash => 0
  | .keyed => 1

/-- `phase` as a bit: `Up` = 0, `Down` = 1 (10 R20). -/
def phaseBit : Phase → Nat
  | .up => 0
  | .down => 1

/-- The response word: `CODE` 7:0, `VALID` 8, `MODE` 9, `PHASE` 10, the rest zero; the flags are those of the state
after the command (30 R66). -/
def responseWord (st : Status) (s : State) : Word :=
  BitVec.ofNat 32
    (statusCode st + 256 * validBit s.valid + 512 * modeBit s.mode + 1024 * phaseBit s.phase)

end Sys2Proof.Machine
end

