-- ==== Sys2Proof/Machine/Operands.lean ====
section
/-! DEFINITION. Byte strings as operands: substrings, XOR, the cut into blocks (41 R91), payload and output lengths
(30 R64, R65), and the parts of the INIT_KEYED payload (42 R112). -/

namespace Sys2Proof.Machine

/-- `0^n` (00 R10). -/
def zeros (n : Nat) : Bytes := List.replicate n 0#8

/-- `X[a..b]`: bytes `a` up to but not including `b` (00 R10). -/
def slice (X : Bytes) (a b : Nat) : Bytes := (X.take b).drop a

/-- Bytewise exclusive-or of two strings of equal length (00 R10). -/
def xorBytes (A B : Bytes) : Bytes := List.zipWith (· ^^^ ·) A B

/-- XOR a string into the first bytes of a buffer: byte `i` of `X` goes to offset `i` (20 R42, 41 R104). -/
def xorFront : Bytes → Bytes → Bytes
  | b :: buf, x :: X => (b ^^^ x) :: xorFront buf X
  | buf, _ => buf

/-- `max(1, ceil(l / r))`, the number of blocks of a string of `l` bytes (41 R91, R100). -/
def numBlocks (l r : Nat) : Nat := max 1 ((l + r - 1) / r)

/-- `Split(X, r)`: the chunks `X[j*r .. min((j+1)*r, len(X))]` (41 R91). -/
def split (X : Bytes) (r : Nat) : List Bytes :=
  (List.range (numBlocks X.length r)).map fun j => slice X (j * r) (min ((j + 1) * r) X.length)

/-- `PayloadLen` of a legal command (30 R64). -/
def payloadLen : Instr → Nat
  | .initHash => 0
  | .initKeyed klen idlen clen => klen + idlen + clen
  | .absorb len => len
  | .encrypt len => len
  | .decrypt len => len
  | .squeeze _ => 0
  | .squeezeKey _ => 0
  | .ratchet => 0
  | .zeroize => 0

/-- `OutLen` of a command that ends with `OK` (30 R65). -/
def outLen : Instr → Nat
  | .initHash => 0
  | .initKeyed _ _ _ => 0
  | .absorb _ => 0
  | .encrypt len => len
  | .decrypt len => len
  | .squeeze len => len
  | .squeezeKey len => len
  | .ratchet => 0
  | .zeroize => 0

/-- `encode_len(ID)`: "the single byte giving the length of ID" (42 R112). -/
def encodeLen (idlen : Nat) : Byte := BitVec.ofNat 8 idlen

/-- The key block `K || ID || [IDLEN]` of the payload `D = K || ID || C` (42 R112). -/
def keyBlock (klen idlen : Nat) (D : Bytes) : Bytes :=
  slice D 0 klen ++ slice D klen (klen + idlen) ++ [encodeLen idlen]

/-- The counter `C` of the payload `D = K || ID || C` (42 R112). -/
def counterOf (klen idlen clen : Nat) (D : Bytes) : Bytes :=
  slice D (klen + idlen) (klen + idlen + clen)

/-- Every command but INIT_HASH, INIT_KEYED and ZEROIZE requires an instance (10 R25, 60 R155 step 4). -/
def needsInstance : Instr → Bool
  | .initHash => false
  | .initKeyed _ _ _ => false
  | .absorb _ => true
  | .encrypt _ => true
  | .decrypt _ => true
  | .squeeze _ => true
  | .squeezeKey _ => true
  | .ratchet => true
  | .zeroize => false

/-- ENCRYPT, DECRYPT and RATCHET require Keyed mode (60 R153, R155 step 5). -/
def needsKeyed : Instr → Bool
  | .initHash => false
  | .initKeyed _ _ _ => false
  | .absorb _ => false
  | .encrypt _ => true
  | .decrypt _ => true
  | .squeeze _ => false
  | .squeezeKey _ => false
  | .ratchet => true
  | .zeroize => false

end Sys2Proof.Machine
end

