-- ==== Sys2Proof/Machine/Ops.lean ====
section
/-! DEFINITION. The named operations on the state: the writes of each element, the bytes of `buf`, zeroisation, the
ports, and how a command ends, with `OK` or with an error (00 R12, R13; 40 R82; 42 R110; 60 R156). -/

namespace Sys2Proof.Machine

def State.setBuf (s : State) (b : Bytes) : State := { s with buf := b }
def State.setPhase (s : State) (p : Phase) : State := { s with phase := p }
def State.setMode (s : State) (m : Mode) : State := { s with mode := m }
/-- the pair of rates is always written together (10 R24) -/
def State.setRates (s : State) (ra rs : Nat) : State := { s with absorbRate := ra, squeezeRate := rs }
def State.setValid (s : State) (v : Bool) : State := { s with valid := v }
def State.setScratch (s : State) (b : Bytes) : State := { s with scratch := b }
def State.setCmd (s : State) (c : List HostInput) : State := { s with cmd := c }
def State.setDin (s : State) (b : Bytes) : State := { s with din := b }
/-- `DoutWrite(Y)`: append `Y` to the data-out stream, `Y[0]` first (00 R13). -/
def State.doutWrite (s : State) (Y : Bytes) : State := { s with dout := s.dout ++ Y }
/-- one word on `RSP` (20 R41) -/
def State.rspWrite (s : State) (w : Word) : State := { s with rsp := s.rsp ++ [w] }
/-- strings sent on `PERM` (20 R41) -/
def State.permWrite (s : State) (l : List Bytes) : State := { s with perm := s.perm ++ l }
/-- the next `n` free values are used up (log entry 7) -/
def State.useFree (s : State) (n : Nat) : State := { s with freeCount := s.freeCount + n }

/-- `buf[i]`, for `i < W` (00 R12). -/
def State.bufByte (s : State) (i : Nat) : Byte := s.buf.getD i 0#8

/-- `MemRead(a, n)`: the string `buf[a..a+n]` (00 R12). -/
def State.memRead (s : State) (a n : Nat) : Bytes := slice s.buf a (a + n)

/-- `buf[i] ^<- v` (00 R12): every write of data is an XOR into one byte (20 R44, 41 R104). -/
def State.bufXor (s : State) (i : Nat) (v : Byte) : State := s.setBuf (s.buf.modify i (· ^^^ v))

/-- XOR the bytes of `X` into `buf[0..len(X)]` (41 R93). -/
def State.bufXorFront (s : State) (X : Bytes) : State := s.setBuf (xorFront s.buf X)

/-- `Zeroise()`, shared by reset, ZEROIZE and both INIT commands (42 R110). -/
def zeroise (P : Descriptor) (s : State) : State :=
  (((((s.setBuf (zeros P.w)).setRates 0 0).setScratch (zeros P.rRatchet)).setPhase .up).setMode .hash).setValid false

/-- `Perm()`: send `buf` on `PERM`, replace it by the answer (40 R82). -/
def permCall (P : Descriptor) (s : State) : State := (s.permWrite [s.buf]).setBuf (P.f s.buf)

/-- `DinRead(n)`: the next `n` payload bytes; none while `DIN` holds fewer (00 R13, 70 R175). -/
def dinRead (n : Nat) (s : State) : Option (Bytes × State) :=
  if n ≤ s.din.length then some (s.din.take n, s.setDin (s.din.drop n)) else none

/-- `respond(code)`: one response word, with the flags after the command (00 R13, 30 R66). -/
def respond (st : Status) (s : State) : State := s.rspWrite (responseWord st s)

/-- What a command's rule ends with: the status, the output bytes, the state before the response. -/
structure Reply where
  status : Status
  out : Bytes
  state : State
deriving DecidableEq, Repr

/-- The rule did what it says: `DoutWrite(Y)`, `respond(OK)`. -/
def done (Y : Bytes) (s : State) : Reply := ⟨.ok, Y, s⟩

/-- `raise <Status>`, the one way a command ends in an error: no output byte, whatever was written to the state stands;
nothing is saved and control goes nowhere, so there is no return from it (00 R13; 60 R156, R157). -/
def raise (e : Status) (s : State) : Reply := ⟨e, [], s⟩

/-- The end of a command: its output bytes, then one response word (20 R41, R48). -/
def Reply.finish (r : Reply) : State := respond r.status (r.state.doutWrite r.out)

/-- The order of checks once a word has been decoded (60 R155 steps 3 to 6): take the payload; an instance must exist;
the mode must be Keyed; then the rule of the command. -/
def runCommand (i : Instr) (rule : Bytes → State → Reply) (s : State) : Host.Outcome State Fault Refusal :=
  match dinRead (payloadLen i) s with
  | none => .fault .stuckAwaitingPayload
  | some (X, s1) =>
    .next (Reply.finish
      (if needsInstance i && !s1.valid then raise .errNoInstance s1
       else if needsKeyed i && decide (s1.mode = .hash) then raise .errMode s1
       else rule X s1))

/-- A word that selects no operation: no payload is taken, no state changes (60 R154, R155 step 2). -/
def illegalCommand (s : State) : State := (raise .errIllegal s).finish

/-- Asserting `RST`: `Zeroise()`, and no response word (70 R170). -/
def assertReset (P : Descriptor) (s : State) : State := zeroise P s

end Sys2Proof.Machine
end

