-- ==== Sys2Proof/Machine/Primitives.lean ====
section
/-! DEFINITION. The two primitives Down and Up, and AbsorbAny, SqueezeAny and Crypt built from them (41 R90 to R106). -/

namespace Sys2Proof.Machine

/-- Where Down puts `cd`: offset `W-1` in Hash mode, offset `r` in Keyed mode (41 R93). -/
def cdOffset (P : Descriptor) (m : Mode) (r : Nat) : Nat :=
  match m with
  | .hash => P.w - 1
  | .keyed => r

/-- `Down(X, r, cd)` (41 R93). -/
def down (P : Descriptor) (X : Bytes) (r : Nat) (cd : Byte) (s : State) : State :=
  (((s.bufXorFront X).bufXor X.length 0x01#8).bufXor (cdOffset P s.mode r) cd).setPhase .down

/-- `Up` XORs `cu` into `buf[W-1]` in Keyed mode and ignores it in Hash mode (41 R95, R96). -/
def applyCu (P : Descriptor) (cu : Byte) (s : State) : State :=
  match s.mode with
  | .hash => s
  | .keyed => s.bufXor (P.w - 1) cu

/-- The state `Up(n, cu)` leaves; it does not depend on `n` (41 R95). -/
def upState (P : Descriptor) (cu : Byte) (s : State) : State :=
  (permCall P (applyCu P cu s)).setPhase .up

/-- `Up(n, cu)`: the returned bytes and the state (41 R95). -/
def up (P : Descriptor) (n : Nat) (cu : Byte) (s : State) : Bytes × State :=
  ((upState P cu s).memRead 0 n, upState P cu s)

/-- The alternation step before a Down: `Up(0, 0x00)` if the last primitive was a Down (41 R97, R101). -/
def beforeDown (P : Descriptor) (s : State) : State :=
  match s.phase with
  | .up => s
  | .down => upState P 0x00#8 s

/-- The alternation step before an Up: `Down("", squeeze_rate, 0x00)` if the last primitive was an Up (41 R99). -/
def beforeUp (P : Descriptor) (s : State) : State :=
  match s.phase with
  | .up => down P [] s.squeezeRate 0x00#8 s
  | .down => s

/-- The chunk loop of AbsorbAny: `cd` with the first chunk, `0x00` with the later ones (41 R97). -/
def absorbChunks (P : Descriptor) (r : Nat) : List Bytes → Byte → State → State
  | [], _, s => s
  | chunk :: chunks, cd, s => absorbChunks P r chunks 0x00#8 (down P chunk r cd (beforeDown P s))

/-- `AbsorbAny(X, r, cd)` (41 R97). -/
def absorbAny (P : Descriptor) (X : Bytes) (r : Nat) (cd : Byte) (s : State) : State :=
  absorbChunks P r (split X r) cd s

/-- The loop of SqueezeAny while `rem = l - len(Y)` bytes are missing. Each turn yields at least one byte when the
rate is not 0, so `rem` turns are enough (41 R99). -/
def squeezeRest (P : Descriptor) : Nat → Nat → State → Bytes × State
  | 0, _, s => ([], s)
  | turns + 1, rem, s =>
    if rem = 0 then ([], s)
    else
      let n := min s.squeezeRate rem
      let Y := up P n 0x00#8 (down P [] s.squeezeRate 0x00#8 s)
      let Z := squeezeRest P turns (rem - n) Y.2
      (Y.1 ++ Z.1, Z.2)

/-- `SqueezeAny(l, cu)` (41 R99). -/
def squeezeAny (P : Descriptor) (l : Nat) (cu : Byte) (s : State) : Bytes × State :=
  let n := min s.squeezeRate l
  let Y := up P n cu (beforeUp P s)
  let Z := squeezeRest P (l - n) (l - n) Y.2
  (Y.1 ++ Z.1, Z.2)

/-- One chunk of Crypt: the keystream from an Up, the output chunk, the plaintext chunk absorbed (41 R101). -/
def cryptChunk (P : Descriptor) (decrypt : Bool) (chunk : Bytes) (s : State) : Bytes × State :=
  let K := up P chunk.length 0x00#8 s
  let O := xorBytes chunk K.1
  (O, down P (if decrypt then O else chunk) P.rKeyedSqueeze 0x00#8 K.2)

/-- The chunk loop of Crypt (41 R101). -/
def cryptChunks (P : Descriptor) (decrypt : Bool) : List Bytes → State → Bytes × State
  | [], s => ([], s)
  | chunk :: chunks, s =>
    let O := cryptChunk P decrypt chunk s
    let Z := cryptChunks P decrypt chunks O.2
    (O.1 ++ Z.1, Z.2)

/-- What comes before the first chunk of Crypt: the alternation step and the separator `Down("", rk, 0x80)` (41 R101). -/
def cryptStart (P : Descriptor) (s : State) : State :=
  down P [] P.rKeyedSqueeze 0x80#8 (beforeDown P s)

/-- `Crypt(X, decrypt)` (41 R101). -/
def crypt (P : Descriptor) (X : Bytes) (decrypt : Bool) (s : State) : Bytes × State :=
  cryptChunks P decrypt (split X P.rKeyedSqueeze) (cryptStart P s)

end Sys2Proof.Machine
end

