-- ==== Sys2Proof/Machine/AbsorbSqueeze.lean ====
section
/-! DEFINITION. ABSORB, SQUEEZE and SQUEEZE_KEY (43 R120 to R124). Each meaning is its rule over an arbitrary
descriptor, applied to the engine's own. -/

namespace Sys2Proof.Machine

/-- `ABSORB(LEN)` on the payload `X` (43 R120). -/
def absorbRule (P : Descriptor) (X : Bytes) (s : State) : Reply :=
  done [] (absorbAny P X s.absorbRate 0x03#8 s)

def absorbCommand (P : Descriptor) (len : Nat) (s : State) : Host.Outcome State Fault Refusal :=
  runCommand (.absorb len) (absorbRule P) s

/-- ABSORB (43 R120, R121). -/
def execAbsorb (len : Nat) (s : State) : Host.Outcome State Fault Refusal := absorbCommand Config.P len s

/-- A squeeze command: the output of `SqueezeAny(LEN, cu)` (43 R122, R123). -/
def squeezeRule (P : Descriptor) (cu : Byte) (len : Nat) (_ : Bytes) (s : State) : Reply :=
  done (squeezeAny P len cu s).1 (squeezeAny P len cu s).2

def squeezeCommand (P : Descriptor) (len : Nat) (s : State) : Host.Outcome State Fault Refusal :=
  runCommand (.squeeze len) (squeezeRule P 0x40#8 len) s

/-- SQUEEZE, `cu = 0x40` (43 R122). -/
def execSqueeze (len : Nat) (s : State) : Host.Outcome State Fault Refusal := squeezeCommand Config.P len s

def squeezeKeyCommand (P : Descriptor) (len : Nat) (s : State) : Host.Outcome State Fault Refusal :=
  runCommand (.squeezeKey len) (squeezeRule P 0x20#8 len) s

/-- SQUEEZE_KEY, `cu = 0x20`, legal in both modes (43 R123). -/
def execSqueezeKey (len : Nat) (s : State) : Host.Outcome State Fault Refusal := squeezeKeyCommand Config.P len s

end Sys2Proof.Machine
end

