-- ==== Sys2Proof/Machine/Construction.lean ====
section
/-! DEFINITION. INIT_HASH, INIT_KEYED and ZEROIZE (42 R110 to R115). Each meaning is its rule over an arbitrary
descriptor, applied to the engine's own. -/

namespace Sys2Proof.Machine

/-- What both constructors set before anything is absorbed: mode, rates, `phase = Up`, `valid = 1` (42 R111, R112; 92 D19). -/
def construct (m : Mode) (ra rs : Nat) (s : State) : State :=
  (((s.setMode m).setRates ra rs).setPhase .up).setValid true

/-- `INIT_HASH` (42 R111). -/
def initHashRule (P : Descriptor) (_ : Bytes) (s : State) : Reply :=
  done [] (construct .hash P.rAbsorb P.rSqueeze (zeroise P s))

def initHashCommand (P : Descriptor) (s : State) : Host.Outcome State Fault Refusal :=
  runCommand .initHash (initHashRule P) s

/-- INIT_HASH (42 R111). -/
def execInitHash (s : State) : Host.Outcome State Fault Refusal := initHashCommand Config.P s

/-- The absorbs of the keyed constructor: the key block, exactly one chunk, then the counter with rate 1 if it is not
empty (42 R112, R113). -/
def absorbKey (P : Descriptor) (klen idlen clen : Nat) (D : Bytes) (s : State) : State :=
  let s1 := absorbAny P (keyBlock klen idlen D) P.rKeyedAbsorb 0x02#8 s
  if clen > 0 then absorbAny P (counterOf klen idlen clen D) 1 0x00#8 s1 else s1

/-- `INIT_KEYED(KLEN, IDLEN, CLEN)` on the payload `D = K || ID || C` (42 R112). -/
def initKeyedRule (P : Descriptor) (klen idlen clen : Nat) (D : Bytes) (s : State) : Reply :=
  if klen + idlen + 1 > P.rKeyedAbsorb then raise .errInvalidKey (zeroise P s)
  else done [] (absorbKey P klen idlen clen D
    (construct .keyed P.rKeyedAbsorb P.rKeyedSqueeze (zeroise P s)))

def initKeyedCommand (P : Descriptor) (klen idlen clen : Nat) (s : State) :
    Host.Outcome State Fault Refusal :=
  runCommand (.initKeyed klen idlen clen) (initKeyedRule P klen idlen clen) s

/-- INIT_KEYED (42 R112, R113). -/
def execInitKeyed (klen idlen clen : Nat) (s : State) : Host.Outcome State Fault Refusal :=
  initKeyedCommand Config.P klen idlen clen s

/-- `ZEROIZE` (42 R114). -/
def zeroizeRule (P : Descriptor) (_ : Bytes) (s : State) : Reply := done [] (zeroise P s)

def zeroizeCommand (P : Descriptor) (s : State) : Host.Outcome State Fault Refusal :=
  runCommand .zeroize (zeroizeRule P) s

/-- ZEROIZE (42 R114). -/
def execZeroize (s : State) : Host.Outcome State Fault Refusal := zeroizeCommand Config.P s

end Sys2Proof.Machine
end

