-- ==== Sys2Proof/Machine/CryptRatchet.lean ====
section
/-! DEFINITION. ENCRYPT, DECRYPT and RATCHET (44 R130 to R134). Each meaning is its rule over an arbitrary descriptor,
applied to the engine's own. -/

namespace Sys2Proof.Machine

/-- ENCRYPT and DECRYPT on the payload `X`: the output of `Crypt(X, decrypt)` (44 R130, R131). -/
def cryptRule (P : Descriptor) (decrypt : Bool) (X : Bytes) (s : State) : Reply :=
  done (crypt P X decrypt s).1 (crypt P X decrypt s).2

def encryptCommand (P : Descriptor) (len : Nat) (s : State) : Host.Outcome State Fault Refusal :=
  runCommand (.encrypt len) (cryptRule P false) s

/-- ENCRYPT (44 R130). -/
def execEncrypt (len : Nat) (s : State) : Host.Outcome State Fault Refusal := encryptCommand Config.P len s

def decryptCommand (P : Descriptor) (len : Nat) (s : State) : Host.Outcome State Fault Refusal :=
  runCommand (.decrypt len) (cryptRule P true) s

/-- DECRYPT; the engine does not authenticate (44 R131). -/
def execDecrypt (len : Nat) (s : State) : Host.Outcome State Fault Refusal := decryptCommand Config.P len s

/-- `scratch <- SqueezeAny(r_ratchet, 0x10)` (44 R133). -/
def ratchetSqueeze (P : Descriptor) (s : State) : State :=
  let Y := squeezeAny P P.rRatchet 0x10#8 s
  Y.2.setScratch Y.1

/-- `AbsorbAny(scratch, r_keyed_absorb, 0x00)`, then `scratch <- 0^r_ratchet` (44 R133). -/
def ratchetAbsorb (P : Descriptor) (s : State) : State :=
  (absorbAny P s.scratch P.rKeyedAbsorb 0x00#8 s).setScratch (zeros P.rRatchet)

/-- `RATCHET` (44 R133). -/
def ratchetRule (P : Descriptor) (_ : Bytes) (s : State) : Reply :=
  done [] (ratchetAbsorb P (ratchetSqueeze P s))

def ratchetCommand (P : Descriptor) (s : State) : Host.Outcome State Fault Refusal :=
  runCommand .ratchet (ratchetRule P) s

/-- RATCHET (44 R133, R134). -/
def execRatchet (s : State) : Host.Outcome State Fault Refusal := ratchetCommand Config.P s

end Sys2Proof.Machine
end

