-- ==== Sys2Proof/Machine/Dispatch.lean ====
section
/-! DEFINITION. The meaning of each command (30 R63), one arm per constructor. -/

namespace Sys2Proof.Machine

/-- One command, from the taking of its payload to its response (60 R155 steps 3 to 6). -/
def exec (i : Instr) (s : State) : Host.Outcome State Fault Refusal :=
  match i with
  | .initHash => Sys2Proof.Machine.execInitHash s
  | .initKeyed klen idlen clen => Sys2Proof.Machine.execInitKeyed klen idlen clen s
  | .absorb len => Sys2Proof.Machine.execAbsorb len s
  | .encrypt len => Sys2Proof.Machine.execEncrypt len s
  | .decrypt len => Sys2Proof.Machine.execDecrypt len s
  | .squeeze len => Sys2Proof.Machine.execSqueeze len s
  | .squeezeKey len => Sys2Proof.Machine.execSqueezeKey len s
  | .ratchet => Sys2Proof.Machine.execRatchet s
  | .zeroize => Sys2Proof.Machine.execZeroize s

end Sys2Proof.Machine
end

