-- ==== Sys2Proof/Machine/HostPort.lean ====
section
/-! DEFINITION. What the engine does with the host's next act: a command word, a reset between commands, a reset during
a command (60 R155, 70 R170, R171). -/

namespace Sys2Proof.Machine

/-- A word taken from `CMD`: decode it, answer an illegal one, run a legal one (60 R155). -/
def processCommand (c : Word) (s : State) : Host.Outcome State Fault Refusal :=
  match decode c with
  | .illegal _ => .next (illegalCommand s)
  | .instr i => exec i s

/-- The command over a shorter payload of `n` bytes, for one whose payload did not all arrive. -/
def shortened (n : Nat) : Instr → Instr
  | .initHash => .initHash
  | .initKeyed klen idlen clen => .initKeyed klen idlen (min clen (n - (klen + idlen)))
  | .absorb len => .absorb (min len n)
  | .encrypt len => .encrypt (min len n)
  | .decrypt len => .decrypt (min len n)
  | .squeeze len => .squeeze len
  | .squeezeKey len => .squeezeKey len
  | .ratchet => .ratchet
  | .zeroize => .zeroize

/-- How many payload bytes of `i` the host has supplied. -/
def supplied (i : Instr) (s : State) : Nat := min (payloadLen i) s.din.length

/-- How many output bytes an aborted command can have delivered: a byte of ENCRYPT or DECRYPT output needs its payload
byte (20 R52). -/
def deliverable (i : Instr) (s : State) : Nat :=
  match i with
  | .encrypt _ => supplied i s
  | .decrypt _ => supplied i s
  | .squeeze len => len
  | .squeezeKey len => len
  | .initHash => 0
  | .initKeyed _ _ _ => 0
  | .absorb _ => 0
  | .ratchet => 0
  | .zeroize => 0

/-- The run the aborted command would have made, with the bytes and the permutation calls it would have shown. When the
payload is short, one more byte than was supplied lets every permutation call that does not need the missing bytes happen;
no output that depends on that byte is `deliverable`. -/
def fullRun (i : Instr) (s : State) : State :=
  let j := shortened (supplied i s + 1) i
  match exec j (s.setDin (s.din.take (supplied i s) ++ zeros (payloadLen j - supplied i s))) with
  | .next t => t
  | .fault _ => s
  | .refused _ => s

/-- Reset while the command `i` is executing (70 R171): the reset state; no response; of the output the rules define a
prefix was delivered, of the permutation calls a prefix was made, of the supplied payload some bytes are gone (taken by
the engine or flushed by the host). The three lengths are free values. Log entry 7. -/
def abortInstr (i : Instr) (s : State) : State :=
  let out := ((fullRun i s).dout.drop s.dout.length).take (min (Config.freeNat s.freeCount) (deliverable i s))
  let calls := ((fullRun i s).perm.drop s.perm.length).take (Config.freeNat (s.freeCount + 1))
  let gone := min (Config.freeNat (s.freeCount + 2)) (supplied i s)
  ((((assertReset Config.P s).setDin (s.din.drop gone)).doutWrite out).permWrite calls).useFree 3

/-- `RST` while the command of the word `c` is executing (70 R171); an illegal word has nothing to abort. -/
def abortCommand (c : Word) (s : State) : State :=
  match decode c with
  | .illegal _ => assertReset Config.P s
  | .instr i => abortInstr i s

/-- The host's next act. -/
def processInput (h : HostInput) (s : State) : Host.Outcome State Fault Refusal :=
  match h with
  | .command c => processCommand c s
  | .reset => .next (assertReset Config.P s)
  | .resetDuring c => .next (abortCommand c s)

/-- Take the next act of the host; with none, the engine waits for a command word and nothing changes (10 R32, 60 R165). -/
def hostStep (s : State) : Host.Outcome State Fault Refusal :=
  match s.cmd with
  | [] => .next s
  | h :: rest => processInput h (s.setCmd rest)

/-- The payload a command word calls for; none for an illegal word (30 R64). -/
def wordPayloadLen (c : Word) : Nat :=
  match decode c with
  | .instr i => payloadLen i
  | .illegal _ => 0

/-- The host presents the word `c` next, with a payload of zeros in front of `DIN`. Log entry 10. -/
def presentWord (c : Word) (s : State) : State :=
  (s.setCmd (.command c :: s.cmd)).setDin (zeros (wordPayloadLen c) ++ s.din)

end Sys2Proof.Machine
end

