-- ==== Sys2Proof/Machine/Step.lean ====
section
/-! DEFINITION. One step of the machine: one act of the host, taken whole (20 R47). -/

namespace Sys2Proof.Machine

/-- One command is one atomic transition (20 R47). -/
def step (s : State) : Host.Outcome State Fault Refusal := hostStep s

/-- `s` with the command word whose table bits are `w` as the host's next act. Log entry 10. -/
def State.withFetchWord (s : State) (nbits w : Nat) : State :=
  presentWord (BitVec.ofNat 32 (w % 2 ^ nbits)) s

end Sys2Proof.Machine
end

