-- ==== Sys2Proof/Machine/Facade.lean ====
section
/-! DEFINITION. The façades' contract against the engine: the command scripts a host issues (30 R72, 45 R140 to R147), and
what the host does with a tag and at the end of a use (45 R144, R145). The engine knows nothing of them. -/

namespace Sys2Proof.Machine

/-- One transaction the host offers: a command and its payload (20 R41). -/
structure Transaction where
  instr : Instr
  payload : Bytes
deriving DecidableEq, Repr

/-- The host presents a script: its words on `CMD`, its payloads on `DIN`, in order (20 R41, 30 R71). -/
def presentScript (script : List Transaction) (s : State) : State :=
  (s.setCmd (script.map (fun t => .command (encode t.instr)) ++ s.cmd)).setDin
    (script.flatMap (·.payload) ++ s.din)

/-- `INIT_KEYED key, id, counter` (R71). -/
def initKeyedTx (key id counter : Bytes) : Transaction :=
  ⟨.initKeyed key.length id.length counter.length, key ++ id ++ counter⟩

/-- `ABSORB bytes` (R71). -/
def absorbTx (X : Bytes) : Transaction := ⟨.absorb X.length, X⟩

/-- `ENCRYPT bytes` (R71). -/
def encryptTx (X : Bytes) : Transaction := ⟨.encrypt X.length, X⟩

/-- `DECRYPT bytes` (R71). -/
def decryptTx (X : Bytes) : Transaction := ⟨.decrypt X.length, X⟩

/-- `SQUEEZE n` (R71). -/
def squeezeTx (n : Nat) : Transaction := ⟨.squeeze n, []⟩

/-- `SQUEEZE_KEY n` (R71). -/
def squeezeKeyTx (n : Nat) : Transaction := ⟨.squeezeKey n, []⟩

/-- `RATCHET` (R71). -/
def ratchetTx : Transaction := ⟨.ratchet, []⟩

/-- `HASH.NEW` (R72, R141). -/
def hashNew : List Transaction := [⟨.initHash, []⟩]

/-- `HASH.UPDATE bytes` (R72, R141). -/
def hashUpdate (X : Bytes) : List Transaction := [absorbTx X]

/-- `HASH.FINALIZE n` (R72, R141). -/
def hashFinalize (n : Nat) : List Transaction := [squeezeTx n]

/-- `AEAD.NEW key`: empty identifier, empty counter (R72, R142). -/
def aeadNew (key : Bytes) : List Transaction := [initKeyedTx key [] []]

/-- `AEAD.SEAL nonce, ad, pt, t` (R72, R143). -/
def aeadSeal (nonce ad pt : Bytes) (tagLen : Nat) : List Transaction :=
  [absorbTx nonce, absorbTx ad, encryptTx pt, squeezeTx tagLen]

/-- The commands of `AEAD.OPEN nonce, ad, ct, tag, t` (R72, R144). -/
def aeadOpen (nonce ad ct : Bytes) (tagLen : Nat) : List Transaction :=
  [absorbTx nonce, absorbTx ad, decryptTx ct, squeezeTx tagLen]

/-- `DROP` (R72). -/
def drop : List Transaction := [⟨.zeroize, []⟩]

/-- What `open` returns to its caller (R144). -/
inductive OpenResult where
  | plaintext (m : Bytes)
  | tagMismatch
deriving DecidableEq, Repr

/-- The comparison of two tags, which "MUST be constant-time" (R145 (a)): every pair of bytes is read whatever the others
hold, and the differences are collected. The collected difference, and how many pairs were read. Log entry 11. -/
def compareTags : Bytes → Bytes → Byte × Nat
  | e :: expected, t :: tag =>
    ((e ^^^ t) ||| (compareTags expected tag).1, (compareTags expected tag).2 + 1)
  | _, _ => (0x00#8, 0)

/-- The host's comparison at the end of `open` (R144, 60 R159). -/
def openResult (m expected tag : Bytes) : OpenResult :=
  if expected.length = tag.length ∧ (compareTags expected tag).1 = 0x00#8 then .plaintext m else .tagMismatch

/-- The host's copy of the plaintext while it is "held back": the first `ctLen` of the bytes delivered since `before`
(R144). -/
def heldBack (before after : State) (ctLen : Nat) : Bytes :=
  (after.dout.drop before.dout.length).take ctLen

/-- The expected tag: what was delivered after the plaintext (R144). -/
def expectedTag (before after : State) (ctLen : Nat) : Bytes :=
  (after.dout.drop before.dout.length).drop ctLen

/-- What the host finds when the commands of `open` have been answered (R144). DESIGN CHOICE: the bytes delivered are all that
is read, no response is; R144 does not say what `open` returns when a command of it did not answer `OK`. Log entry 20. -/
def openVerdict (before after : State) (ctLen : Nat) (tag : Bytes) : OpenResult :=
  openResult (heldBack before after ctLen) (expectedTag before after ctLen) tag

/-- The host's copy `held` of the plaintext once the comparison gave `r`: on a mismatch the host must "overwrite its copy of
plaintext with zeros", else the copy is what it releases (R144, 60 R159). -/
def copyAfterOpen (held : Bytes) (r : OpenResult) : Bytes :=
  match r with
  | .plaintext _ => held
  | .tagMismatch => zeros held.length

/-- What the host issues after the comparison: `ZEROIZE` on a mismatch (R144). -/
def afterOpen (r : OpenResult) : List Transaction :=
  match r with
  | .plaintext _ => []
  | .tagMismatch => drop

/-- What is left to issue at the end of a use that `open` closes: `ZEROIZE` unless `afterOpen` has issued it (R145 (c)). -/
def endUse (r : OpenResult) : List Transaction :=
  match r with
  | .plaintext _ => drop
  | .tagMismatch => []

/-- A whole use of a keyed instance: "the host ends every use of a keyed instance, successful or not, with `ZEROIZE`"
(R145 (c)). The commands between are the host's choice (R147). -/
def keyedUse (key id counter : Bytes) (body : List Transaction) : List Transaction :=
  initKeyedTx key id counter :: (body ++ drop)

/-- A whole use for one `seal` (R142, R143, R145 (c); 95 part 4, P2). -/
def sealUse (key nonce ad pt : Bytes) (tagLen : Nat) : List Transaction :=
  keyedUse key [] [] (aeadSeal nonce ad pt tagLen)

/-- A whole use for one `open` that ended with `r` (R142, R144, R145 (c)). -/
def openUse (key nonce ad ct : Bytes) (tagLen : Nat) (r : OpenResult) : List Transaction :=
  aeadNew key ++ aeadOpen nonce ad ct tagLen ++ afterOpen r ++ endUse r

end Sys2Proof.Machine
end

