-- ==== Sys2Proof/Safety.lean ====
section
/-! DEFINITION. What holds between commands (10 R31), and what a safe run is. -/

namespace Sys2Proof.Machine

/-- `buf` has its `W` bytes (10 R20): the canonical form of the one store. -/
abbrev State.BufWidth (P : Descriptor) (s : State) : Prop := s.buf.length = P.w

/-- The rates of a live instance (10 R31). -/
def ratesOf (P : Descriptor) : Mode → Nat × Nat
  | .hash => (P.rAbsorb, P.rSqueeze)
  | .keyed => (P.rKeyedAbsorb, P.rKeyedSqueeze)

/-- With no instance everything is zero (10 R31). -/
def Zeroised (P : Descriptor) (s : State) : Prop :=
  s.buf = zeros P.w ∧ s.phase = .up ∧ s.mode = .hash ∧ s.absorbRate = 0 ∧ s.squeezeRate = 0 ∧
    s.valid = false ∧ s.scratch = zeros P.rRatchet

/-- The invariant between commands (10 R31), and that `buf` has its `W` bytes (10 R20). -/
structure Inv (P : Descriptor) (s : State) : Prop where
  width : s.BufWidth P
  scratch : s.scratch = zeros P.rRatchet
  noInstance : s.valid = false → Zeroised P s
  rates : s.valid = true → (s.absorbRate, s.squeezeRate) = ratesOf P s.mode

/-- The payload of `i` has been supplied (70 R173: the host must "supply all payload bytes"). -/
abbrev PayloadReady (i : Instr) (s : State) : Prop := payloadLen i ≤ s.din.length

/-- The seven elements of the engine (10 R20) agree; the port streams may differ. -/
def SameEngine (s t : State) : Prop :=
  s.buf = t.buf ∧ s.phase = t.phase ∧ s.mode = t.mode ∧ s.absorbRate = t.absorbRate ∧
    s.squeezeRate = t.squeezeRate ∧ s.valid = t.valid ∧ s.scratch = t.scratch

/-- Every string sent on `PERM` has `W` bytes (40 R82). -/
def PermWidths (P : Descriptor) (s : State) : Prop := ∀ b ∈ s.perm, b.length = P.w

/-- A command of 60 R152: "ABSORB, ENCRYPT, DECRYPT, SQUEEZE, SQUEEZE_KEY, RATCHET". -/
def IsOperation (i : Instr) : Prop :=
  i = .ratchet ∨ ∃ n, i = .absorb n ∨ i = .encrypt n ∨ i = .decrypt n ∨ i = .squeeze n ∨ i = .squeezeKey n

/-- A command of 60 R153: "ENCRYPT, DECRYPT or RATCHET". -/
def IsKeyedOnly (i : Instr) : Prop := i = .ratchet ∨ ∃ n, i = .encrypt n ∨ i = .decrypt n

/-- The key block of INIT_KEYED is too long (60 R151). -/
def KeyTooLong (P : Descriptor) (i : Instr) : Prop :=
  ∃ k d c, i = .initKeyed k d c ∧ k + d + 1 > P.rKeyedAbsorb

/-- `CODE` is that of the first failing check, in the order of 60 R155, or `OK`. -/
def FirstFailure (P : Descriptor) (c : Word) (s : State) (code : Nat) : Prop :=
  match decode c with
  | .illegal _ => code = 0x02
  | .instr i =>
    (IsOperation i ∧ s.valid = false ∧ code = 0x03) ∨
    (IsKeyedOnly i ∧ s.valid = true ∧ s.mode = .hash ∧ code = 0x04) ∨
    (KeyTooLong P i ∧ code = 0x01) ∨
    ((IsOperation i → s.valid = true) ∧ (IsKeyedOnly i → s.mode = .keyed) ∧ ¬ KeyTooLong P i ∧ code = 0x00)

/-- The permutation calls of a command that ends with `OK` (70 R181). -/
def callsOf (P : Descriptor) (s : State) : Instr → Nat
  | .initHash => 0
  | .initKeyed _ _ clen => clen
  | .absorb len => phaseBit s.phase + numBlocks len s.absorbRate - 1
  | .encrypt len => phaseBit s.phase + numBlocks len P.rKeyedSqueeze
  | .decrypt len => phaseBit s.phase + numBlocks len P.rKeyedSqueeze
  | .squeeze len => numBlocks len s.squeezeRate
  | .squeezeKey len => numBlocks len s.squeezeRate
  | .ratchet => numBlocks P.rRatchet s.squeezeRate + numBlocks P.rRatchet P.rKeyedAbsorb - 1
  | .zeroize => 0

/-- The buffer before the first Down of AbsorbAny or Crypt: permuted if the phase is `Down` (41 R97, R101). -/
def freshBuf (P : Descriptor) (s : State) : Bytes := if s.phase = .down then P.f s.buf else s.buf

/-- The permutation call of that alternation step, if there is one (41 R97, R101). -/
def freshCall (s : State) : List Bytes := if s.phase = .down then [s.buf] else []

/-- `B` is `A` with the bytes `d i` XORed in, offset by offset; both have `W` bytes. -/
def XoredWith (P : Descriptor) (A B : Bytes) (d : Nat → Byte) : Prop :=
  B.length = P.w ∧ ∀ i < P.w, B.getD i 0#8 = A.getD i 0#8 ^^^ d i

/-- The byte `v` at offset `j`, zero elsewhere. -/
def byteAt (j : Nat) (v : Byte) (i : Nat) : Byte := if i = j then v else 0#8

/-- What one counter byte of INIT_KEYED does to the buffer: permute, XOR it into `buf[0]`, padding into `buf[1]`
(42 R113 (b)). -/
def counterStep (P : Descriptor) (b : Bytes) (c : Byte) : Bytes :=
  ((P.f b).modify 0 (· ^^^ c)).modify 1 (· ^^^ 0x01#8)

/-- The buffers the counter absorb sends on `PERM`: the one before each counter byte (42 R113 (b)). -/
def counterCalls (P : Descriptor) : Bytes → Bytes → List Bytes
  | _, [] => []
  | b, c :: cs => b :: counterCalls P (counterStep P b c) cs

/-- A run of `k` steps that neither waits for payload for ever nor is refused. -/
def RunsFrom (k : Nat) (s : State) : Prop :=
  match k with
  | 0 => True
  | k + 1 => ∃ t, step s = .next t ∧ RunsFrom k t

end Sys2Proof.Machine
end

