-- ==== Sys2Proof/Certificates/Slice0/Obligations.lean ====
section
/-! DEFINITION. The statements for the provers, from the numbered rules of spec/. Each docstring names the rule.
`Config.P` is an open constant, so a statement about `exec` or `step` is about every legal descriptor. -/

open Sys2Proof Sys2Proof.Machine

/-! ### Encoding -/

/-- Every well-formed command is what its own word decodes to (30 R61, R63, R69). -/
def Obligations.DecodeOfEncode : Prop := ∀ i : Instr, i.wf = true → decode (encode i) = .instr i

/-- A word that decodes to a command is that command's word, and the command is well-formed (30 R61, R62, R69). -/
def Obligations.EncodeOfDecode : Prop :=
  ∀ (c : Word) (i : Instr), decode c = .instr i → i.wf = true ∧ encode i = c

/-- R63: a word decodes to a command of a mnemonic iff it selects that mnemonic's row, and no word selects two rows. -/
def Obligations.DecodeFollowsOpcodeMap : Prop :=
  (∀ (c : Word) (m : String),
    (∃ i, decode c = .instr i ∧ mnemonicOf i = m) ↔ ∃ row ∈ opcodeTable, row.mnemonic = m ∧ row.selects c = true) ∧
  ∀ c : Word, ∀ r ∈ opcodeTable, ∀ r' ∈ opcodeTable, r.selects c = true → r'.selects c = true → r = r'

/-- Words written out from R61 to R63 (95 part 3.1). -/
def Obligations.SpecWordsDecode : Prop :=
  decode 0x10000000#32 = .instr .initHash ∧
  decode 0x20030210#32 = .instr (.initKeyed 16 2 3) ∧
  decode 0x30FFFFFF#32 = .instr (.absorb 16777215) ∧
  decode 0x40000001#32 = .instr (.encrypt 1) ∧
  decode 0x50000000#32 = .instr (.decrypt 0) ∧
  decode 0x60000020#32 = .instr (.squeeze 32) ∧
  decode 0x70000010#32 = .instr (.squeezeKey 16) ∧
  decode 0x80000000#32 = .instr .ratchet ∧
  decode 0x90000000#32 = .instr .zeroize ∧
  decode 0x80000001#32 = .illegal .nonzeroArgument ∧
  decode 0x31000000#32 = .illegal .reservedBits ∧
  decode 0xA0000000#32 = .illegal .reservedOpcode

/-- R67: which words are illegal, and that an illegal word takes no payload, changes no state, writes no output and is
answered `ERR_ILLEGAL`; every other word is one of the nine operations. -/
def Obligations.IllegalWords : Prop :=
  (∀ c : Word, (∃ e, decode c = .illegal e) ↔
    (c.extractLsb' 28 4 = 0x0#4 ∨ 0xA#4 ≤ c.extractLsb' 28 4 ∨ c.extractLsb' 24 4 ≠ 0#4 ∨
      ((c.extractLsb' 28 4 = 0x1#4 ∨ c.extractLsb' 28 4 = 0x8#4 ∨ c.extractLsb' 28 4 = 0x9#4) ∧
        c.extractLsb' 0 24 ≠ 0#24))) ∧
  (∀ c : Word, (∃ e, decode c = .illegal e) ∨ ∃ row ∈ opcodeTable, row.selects c = true) ∧
  ∀ (s : State) (c : Word) (e : Illegal) (rest : List HostInput),
    s.cmd = .command c :: rest → decode c = .illegal e →
      step s = .next { s with
        cmd := rest
        rsp := s.rsp ++ [BitVec.ofNat 32
          (0x02 + 256 * validBit s.valid + 512 * modeBit s.mode + 1024 * phaseBit s.phase)] }

/-! ### Steps, framing, responses -/

/-- When the host's next act is a word that decodes to a command, the step is that command's `exec` once the word has been
taken from `CMD` (30 R69, 60 R155). -/
def Obligations.StepRunsDecodedCommand : Prop :=
  ∀ (s : State) (c : Word) (i : Instr) (rest : List HostInput),
    s.cmd = .command c :: rest → decode c = .instr i → step s = exec i { s with cmd := rest }

/-- With no act of the host left the engine waits: nothing changes (10 R32, 70 R182). That waiting is a step that answers
the same state is the model's reading, log entry 6. -/
def Obligations.IdleEngineWaits : Prop := ∀ s : State, s.cmd = [] → step s = .next s

/-- A command takes exactly `PayloadLen(c)` bytes, also when it ends in an error; surplus bytes stay for a later command
(30 R64, 70 R175). With fewer supplied the command "waits for the rest for ever" (70 R175): that the model says so by the
fault `stuckAwaitingPayload`, at the step that takes the word, is its own reading, log entry 5. -/
def Obligations.PayloadFraming : Prop :=
  ∀ (s : State) (c : Word) (rest : List HostInput), s.cmd = .command c :: rest →
    ∃ n, (∀ e, decode c = .illegal e → n = 0) ∧
      (∀ i, decode c = .instr i →
        n = match i with
          | .initKeyed klen idlen clen => klen + idlen + clen
          | .absorb len => len
          | .encrypt len => len
          | .decrypt len => len
          | .initHash => 0
          | .squeeze _ => 0
          | .squeezeKey _ => 0
          | .ratchet => 0
          | .zeroize => 0) ∧
      (s.din.length < n → step s = .fault .stuckAwaitingPayload) ∧
      (n ≤ s.din.length → ∃ t, step s = .next t ∧ t.din = s.din.drop n)

/-- R65: on `OK` a command writes exactly `OutLen` bytes, `LEN` for ENCRYPT, DECRYPT, SQUEEZE and SQUEEZE_KEY and none for
the others; on any other status, also that of an illegal word, it writes none. -/
def Obligations.OutputLength : Prop :=
  (∀ (s t : State) (c : Word) (e : Illegal) (rest : List HostInput), s.cmd = .command c :: rest →
    decode c = .illegal e → step s = .next t → t.dout = s.dout) ∧
  ∀ (i : Instr) (s t : State), Inv Config.P s → exec i s = .next t →
    ∃ out w, t.dout = s.dout ++ out ∧ t.rsp = s.rsp ++ [w] ∧
      (w.extractLsb' 0 8 = 0x00#8 →
        out.length = match i with
          | .encrypt len => len
          | .decrypt len => len
          | .squeeze len => len
          | .squeezeKey len => len
          | .initHash => 0
          | .initKeyed _ _ _ => 0
          | .absorb _ => 0
          | .ratchet => 0
          | .zeroize => 0) ∧
      (w.extractLsb' 0 8 ≠ 0x00#8 → out = [])

/-- R66, R155: every command, legal or not, ends with exactly one response word; `CODE` is that of the first failing
check or `OK`; the flag bits are those of the state after the command; bits 31:11 are zero. -/
def Obligations.ResponseOfEveryCommand : Prop :=
  ∀ (s t : State) (c : Word) (rest : List HostInput), s.cmd = .command c :: rest → step s = .next t →
    ∃ w code, t.rsp = s.rsp ++ [w] ∧ FirstFailure Config.P c s code ∧
      w.extractLsb' 0 8 = BitVec.ofNat 8 code ∧
      w.getLsbD 8 = t.valid ∧
      w.getLsbD 9 = decide (t.mode = .keyed) ∧
      w.getLsbD 10 = decide (t.phase = .down) ∧
      w.extractLsb' 11 21 = 0#21

/-- Errors are precise (60 R156): an illegal word, which ends with `ERR_ILLEGAL`, and a command that ends with
`ERR_NO_INSTANCE` or `ERR_MODE` have changed no element of the engine and called no permutation; one that ends with
`ERR_INVALID_KEY` has zeroised it and done nothing else. -/
def Obligations.ErrorsArePrecise : Prop :=
  (∀ (s t : State) (c : Word) (e : Illegal) (rest : List HostInput), s.cmd = .command c :: rest →
    decode c = .illegal e → step s = .next t →
      SameEngine s t ∧ t.perm = s.perm ∧ t.dout = s.dout ∧ t.din = s.din ∧ t.cmd = rest ∧
        ∃ w, t.rsp = s.rsp ++ [w] ∧ w.extractLsb' 0 8 = 0x02#8) ∧
  ∀ (i : Instr) (s t : State) (w : Word), exec i s = .next t → t.rsp = s.rsp ++ [w] →
    ((w.extractLsb' 0 8 = 0x03#8 ∨ w.extractLsb' 0 8 = 0x04#8) →
      SameEngine s t ∧ t.perm = s.perm ∧ t.dout = s.dout ∧ t.cmd = s.cmd) ∧
    (w.extractLsb' 0 8 = 0x01#8 →
      Zeroised Config.P t ∧ t.perm = s.perm ∧ t.dout = s.dout ∧ t.cmd = s.cmd)

/-! ### Errors -/

/-- R152: an operation command while no instance exists. -/
def Obligations.NoInstanceError : Prop :=
  ∀ (i : Instr) (s : State), IsOperation i → s.valid = false → PayloadReady i s →
    exec i s = .next { s with
      din := s.din.drop (payloadLen i)
      rsp := s.rsp ++ [BitVec.ofNat 32 (0x03 + 512 * modeBit s.mode + 1024 * phaseBit s.phase)] }

/-- R153: ENCRYPT, DECRYPT or RATCHET while `valid = 1` and `mode = Hash`. -/
def Obligations.ModeError : Prop :=
  ∀ (i : Instr) (s : State), IsKeyedOnly i → s.valid = true → s.mode = .hash → PayloadReady i s →
    exec i s = .next { s with
      din := s.din.drop (payloadLen i)
      rsp := s.rsp ++ [BitVec.ofNat 32 (0x104 + 1024 * phaseBit s.phase)] }

/-- R151: INIT_KEYED with a key block that is too long leaves the engine zeroised, with the payload taken, no permutation
call and no output. -/
def Obligations.InvalidKeyError : Prop :=
  ∀ (s : State) (klen idlen clen : Nat), klen + idlen + 1 > Config.P.rKeyedAbsorb →
    klen + idlen + clen ≤ s.din.length →
    exec (.initKeyed klen idlen clen) s = .next { s with
      buf := zeros Config.P.w, phase := .up, mode := .hash, absorbRate := 0, squeezeRate := 0, valid := false
      scratch := zeros Config.P.rRatchet
      din := s.din.drop (klen + idlen + clen)
      rsp := s.rsp ++ [0x00000001#32] }

/-! ### Reset -/

/-- R32: the state after reset. -/
def Obligations.ResetState : Prop :=
  let r := State.reset
  r.buf = zeros Config.P.w ∧ r.phase = .up ∧ r.mode = .hash ∧ r.absorbRate = 0 ∧ r.squeezeRate = 0 ∧
    r.valid = false ∧ r.scratch = zeros Config.P.rRatchet

/-- Asserting `RST` makes every element its reset value and produces no response (70 R170). That what the ports have
carried and what the host still sends stand, and the count of free values with them, is the model's choice, log entries
9 and 7. -/
def Obligations.ResetStep : Prop :=
  ∀ (s : State) (rest : List HostInput), s.cmd = .reset :: rest →
    step s = .next { s with
      buf := zeros Config.P.w, phase := .up, mode := .hash, absorbRate := 0, squeezeRate := 0, valid := false
      scratch := zeros Config.P.rRatchet
      cmd := rest }

/-- Reset during a command (70 R171): the reset state, no response, and of the command's output a prefix, possibly empty,
never more than `OutLen`; some of the supplied payload bytes may be gone. When the payload is short, the prefix is one of
the output on the bytes supplied (20 R52). How many is a free value (the model's log entry 7): this holds for every
choice. -/
def Obligations.ResetDuringCommand : Prop :=
  ∀ (s : State) (c : Word) (rest : List HostInput), s.cmd = .resetDuring c :: rest →
    ∃ t out gone, step s = .next t ∧ Zeroised Config.P t ∧ t.cmd = rest ∧ t.rsp = s.rsp ∧
      t.dout = s.dout ++ out ∧ t.din = s.din.drop gone ∧
      (∀ e, decode c = .illegal e → out = [] ∧ gone = 0) ∧
      (∀ i, decode c = .instr i → gone ≤ min (payloadLen i) s.din.length ∧ out.length ≤ outLen i ∧
        (∀ u, exec i { s with cmd := rest } = .next u → ∃ more, u.dout = s.dout ++ out ++ more) ∧
        (Inv Config.P s →
          ∀ u, exec (shortened (min (payloadLen i) s.din.length) i) { s with cmd := rest } = .next u →
            ∃ more, u.dout = s.dout ++ out ++ more))

/-! ### Construction and destruction -/

/-- R111: INIT_HASH, from any state. -/
def Obligations.InitHashResult : Prop :=
  ∀ s : State, exec .initHash s = .next { s with
    buf := zeros Config.P.w, phase := .up, mode := .hash, absorbRate := Config.P.rAbsorb
    squeezeRate := Config.P.rSqueeze, valid := true, scratch := zeros Config.P.rRatchet
    rsp := s.rsp ++ [0x00000100#32] }

/-- R114: ZEROIZE, from any state; after it every operation command is answered `ERR_NO_INSTANCE` and the state stays
zeroised. -/
def Obligations.ZeroizeResult : Prop :=
  ∀ s : State, ∃ t, exec .zeroize s = .next t ∧
    t = { s with
      buf := zeros Config.P.w, phase := .up, mode := .hash, absorbRate := 0, squeezeRate := 0, valid := false
      scratch := zeros Config.P.rRatchet
      rsp := s.rsp ++ [0x00000000#32] } ∧
    (Zeroised Config.P s → SameEngine s t) ∧
    ∀ i, IsOperation i → PayloadReady i t →
      exec i t = .next { t with din := t.din.drop (payloadLen i), rsp := t.rsp ++ [0x00000003#32] }

/-- A successful INIT_KEYED (42 R112, R113): the key block `K || ID || [len(ID)]` with its padding and `0x02` at offset
`r_keyed_absorb`, then one permutation and one byte per counter byte; Keyed mode, the keyed rates, `phase = Down`. -/
def Obligations.InitKeyedResult : Prop :=
  ∀ (s : State) (K ID C rest : Bytes), K.length + ID.length + 1 ≤ Config.P.rKeyedAbsorb →
    s.din = K ++ ID ++ C ++ rest →
    ∃ B, XoredWith Config.P (zeros Config.P.w) B (fun i =>
        (K ++ ID ++ [BitVec.ofNat 8 ID.length]).getD i 0#8 ^^^
          byteAt (K.length + ID.length + 1) 0x01#8 i ^^^ byteAt Config.P.rKeyedAbsorb 0x02#8 i) ∧
      exec (.initKeyed K.length ID.length C.length) s = .next { s with
        buf := C.foldl (counterStep Config.P) B, phase := .down, mode := .keyed
        absorbRate := Config.P.rKeyedAbsorb, squeezeRate := Config.P.rKeyedSqueeze, valid := true
        scratch := zeros Config.P.rRatchet
        din := rest
        perm := s.perm ++ counterCalls Config.P B C
        rsp := s.rsp ++ [0x00000700#32] }

/-- Construction, teardown and reset leave nothing of the instance that was there (10 R25, 42 R110 to R114, 70 R170): from
any two states, for construction with the same payload on `DIN`, they leave the same engine. -/
def Obligations.ConstructionForgets : Prop :=
  (∀ (i : Instr) (s s' t t' : State), ¬ IsOperation i → s.din = s'.din →
    exec i s = .next t → exec i s' = .next t' → SameEngine t t') ∧
  ∀ (s s' t t' : State) (rest rest' : List HostInput), s.cmd = .reset :: rest → s'.cmd = .reset :: rest' →
    step s = .next t → step s' = .next t' → SameEngine t t'

/-- During the life of a valid engine the operation commands change neither `mode`, nor the rates, nor `valid`, and leave
`scratch` zero (10 R23 to R26, 42 R115). -/
def Obligations.OperationsKeepInstance : Prop :=
  ∀ (i : Instr) (s t : State), Inv Config.P s → IsOperation i → exec i s = .next t →
    t.mode = s.mode ∧ t.absorbRate = s.absorbRate ∧ t.squeezeRate = s.squeezeRate ∧ t.valid = s.valid ∧
      t.scratch = zeros Config.P.rRatchet ∧ t.cmd = s.cmd ∧ t.freeCount = s.freeCount

/-! ### The primitives, over every descriptor -/

/-- R91: Split is the greedy cut: `max(1, ceil(len/r))` chunks; chunk `j` is `X[j*r .. min((j+1)*r, len)]`; every chunk
but the last has `r` bytes; the last has between 1 and `r` when `X` is not empty; together they are `X`. -/
def Obligations.SplitIsGreedyCut : Prop :=
  ∀ (X : Bytes) (r : Nat), 0 < r →
    ∃ n, n = max 1 ((X.length + r - 1) / r) ∧ (split X r).length = n ∧
      (∀ j < n, (split X r)[j]? = some ((X.drop (j * r)).take r)) ∧
      (∀ j, j + 1 < n → ∀ c, (split X r)[j]? = some c → c.length = r) ∧
      (∀ c, (split X r)[n - 1]? = some c → c.length = X.length - (n - 1) * r ∧ c.length ≤ r ∧ (X ≠ [] → 1 ≤ c.length)) ∧
      (split X r).flatten = X

/-- R93: Down. -/
def Obligations.DownEffect : Prop :=
  ∀ (P : Descriptor) (X : Bytes) (r : Nat) (cd : Byte) (s : State), s.BufWidth P → X.length ≤ r → r ≤ P.w - 1 →
    ∃ B, XoredWith P s.buf B (fun i =>
        X.getD i 0#8 ^^^ byteAt X.length 0x01#8 i ^^^ byteAt (if s.mode = .hash then P.w - 1 else r) cd i) ∧
      down P X r cd s = { s with buf := B, phase := .down }

/-- R95: Up. -/
def Obligations.UpEffect : Prop :=
  ∀ (P : Descriptor) (n : Nat) (cu : Byte) (s : State), s.BufWidth P → n ≤ P.w - 1 →
    ∃ B, XoredWith P s.buf B (byteAt (P.w - 1) (if s.mode = .keyed then cu else 0#8)) ∧
      up P n cu s = ((P.f B).take n, { s with buf := P.f B, phase := .up, perm := s.perm ++ [B] }) ∧
      ((P.f B).take n).length = n

/-- R97: AbsorbAny on a string of one block and on a longer one; it ends in phase Down and outputs nothing. -/
def Obligations.AbsorbAnyBlocks : Prop :=
  ∀ (P : Descriptor) (X : Bytes) (r : Nat) (cd : Byte) (s : State), 0 < r → r ≤ P.w - 1 →
    (X.length ≤ r → absorbAny P X r cd s = down P X r cd (if s.phase = .down then (up P 0 0x00#8 s).2 else s)) ∧
    (r < X.length → absorbAny P X r cd s =
      absorbAny P (X.drop r) r 0x00#8 (absorbAny P (X.take r) r cd s)) ∧
    (absorbAny P X r cd s).phase = .down ∧ (absorbAny P X r cd s).dout = s.dout

/-- R99: SqueezeAny for at most one block and for more; it ends in phase Up. -/
def Obligations.SqueezeAnyBlocks : Prop :=
  ∀ (P : Descriptor) (l : Nat) (cu : Byte) (s : State), 0 < s.squeezeRate → s.squeezeRate ≤ P.w - 1 →
    (l ≤ s.squeezeRate → squeezeAny P l cu s =
      up P l cu (if s.phase = .up then down P [] s.squeezeRate 0x00#8 s else s)) ∧
    (s.squeezeRate < l → squeezeAny P l cu s =
      ((squeezeAny P s.squeezeRate cu s).1 ++
          (squeezeAny P (l - s.squeezeRate) 0x00#8 (squeezeAny P s.squeezeRate cu s).2).1,
        (squeezeAny P (l - s.squeezeRate) 0x00#8 (squeezeAny P s.squeezeRate cu s).2).2)) ∧
    (squeezeAny P l cu s).2.phase = .up

/-- R101: Crypt on a string of one block: the alternation step, the separator, one Up for the keystream, the output, the
plaintext absorbed; on a longer string the same for its first block, then one Up and one Down per chunk. -/
def Obligations.CryptBlocks : Prop :=
  ∀ (P : Descriptor) (X : Bytes) (d : Bool) (s : State), s.BufWidth P →
    (X.length ≤ P.rKeyedSqueeze →
      let s1 := down P [] P.rKeyedSqueeze 0x80#8 (if s.phase = .down then (up P 0 0x00#8 s).2 else s)
      let K := up P X.length 0x00#8 s1
      crypt P X d s = (xorBytes X K.1,
        down P (if d then xorBytes X K.1 else X) P.rKeyedSqueeze 0x00#8 K.2)) ∧
    (∀ chunk chunks s', cryptChunks P d (chunk :: chunks) s' =
      let K := up P chunk.length 0x00#8 s'
      let O := xorBytes chunk K.1
      let Z := cryptChunks P d chunks (down P (if d then O else chunk) P.rKeyedSqueeze 0x00#8 K.2)
      (O ++ Z.1, Z.2)) ∧
    (P.rKeyedSqueeze < X.length →
      let O := crypt P (X.take P.rKeyedSqueeze) d s
      let Z := cryptChunks P d (split (X.drop P.rKeyedSqueeze) P.rKeyedSqueeze) O.2
      crypt P X d s = (O.1 ++ Z.1, Z.2)) ∧
    (crypt P X d s).2.phase = .down ∧ (crypt P X d s).1.length = X.length

/-! ### ABSORB -/

/-- ABSORB completes from every state with an instance, for every length (43 R120): it is AbsorbAny at the rate register
with `0x03`, ends in phase Down, and touches only `buf`, `phase` and the streams. -/
def Obligations.AbsorbCompletes : Prop :=
  ∀ (s : State) (X rest : Bytes), Inv Config.P s → s.valid = true → s.din = X ++ rest →
    ∃ t0, t0 = absorbAny Config.P X s.absorbRate 0x03#8 { s with din := rest } ∧
      t0.buf.length = Config.P.w ∧
      exec (.absorb X.length) s = .next { s with
        buf := t0.buf, phase := .down, din := rest, perm := t0.perm
        rsp := s.rsp ++ [if s.mode = .keyed then 0x00000700#32 else 0x00000500#32] }

/-- ABSORB of a string of at most one block, byte by byte (43 R120, R121, 41 R93, R97): the bytes at the front, the padding
behind them, `0x03` at `W-1` in Hash mode and at `absorb_rate` in Keyed mode, after a permutation if the phase was Down. -/
def Obligations.AbsorbOneBlock : Prop :=
  ∀ (s : State) (X rest : Bytes), Inv Config.P s → s.valid = true → s.din = X ++ rest → X.length ≤ s.absorbRate →
    ∃ B, XoredWith Config.P (freshBuf Config.P s) B (fun i =>
        X.getD i 0#8 ^^^ byteAt X.length 0x01#8 i ^^^
          byteAt (if s.mode = .hash then Config.P.w - 1 else s.absorbRate) 0x03#8 i) ∧
      exec (.absorb X.length) s = .next { s with
        buf := B, phase := .down, din := rest, perm := s.perm ++ freshCall s
        rsp := s.rsp ++ [if s.mode = .keyed then 0x00000700#32 else 0x00000500#32] }

/-! ### SQUEEZE and SQUEEZE_KEY -/

/-- SQUEEZE and SQUEEZE_KEY complete from every state with an instance, for every length (43 R122, R123): `n` bytes out,
phase Up, and only `buf`, `phase` and the streams touched. -/
def Obligations.SqueezesComplete : Prop :=
  ∀ (s : State) (n : Nat) (i : Instr) (cu : Byte), Inv Config.P s → s.valid = true →
    (i = .squeeze n ∧ cu = 0x40#8 ∨ i = .squeezeKey n ∧ cu = 0x20#8) →
    ∃ Y t0, (Y, t0) = squeezeAny Config.P n cu s ∧ Y.length = n ∧ t0.buf.length = Config.P.w ∧
      exec i s = .next { s with
        buf := t0.buf, phase := .up, dout := s.dout ++ Y, perm := t0.perm
        rsp := s.rsp ++ [if s.mode = .keyed then 0x00000300#32 else 0x00000100#32] }

/-- A squeeze of at most one block, byte by byte (43 R122, R123, 41 R95, R99): from phase Up `0x01` is XORed into `buf[0]`
first; in Keyed mode `0x40` (SQUEEZE) or `0x20` (SQUEEZE_KEY) into `buf[W-1]`; the output is the front of what the
permutation answers. -/
def Obligations.SqueezeOneBlock : Prop :=
  ∀ (s : State) (n : Nat) (i : Instr) (cu : Byte), Inv Config.P s → s.valid = true → n ≤ s.squeezeRate →
    (i = .squeeze n ∧ cu = 0x40#8 ∨ i = .squeezeKey n ∧ cu = 0x20#8) →
    ∃ B, XoredWith Config.P s.buf B (fun j =>
        byteAt 0 (if s.phase = .up then 0x01#8 else 0#8) j ^^^
          byteAt (Config.P.w - 1) (if s.mode = .keyed then cu else 0#8) j) ∧
      exec i s = .next { s with
        buf := Config.P.f B, phase := .up, dout := s.dout ++ (Config.P.f B).take n, perm := s.perm ++ [B]
        rsp := s.rsp ++ [if s.mode = .keyed then 0x00000300#32 else 0x00000100#32] }

/-- In Hash mode SQUEEZE_KEY is SQUEEZE: same output, same state, same response (43 R123, 41 R96 (a)). -/
def Obligations.SqueezeKeyIsSqueezeInHashMode : Prop :=
  ∀ (s : State) (n : Nat), s.mode = .hash → exec (.squeezeKey n) s = exec (.squeeze n) s

/-- A shorter SQUEEZE gives the front of a longer one, and a shorter SQUEEZE_KEY that of a longer one: output block `j`
depends only on the state at the start of the command (20 R52, 41 R99). -/
def Obligations.SqueezeOutputIsStream : Prop :=
  ∀ (s t u : State) (m n : Nat) (i j : Instr), Inv Config.P s → m ≤ n →
    (i = .squeeze m ∧ j = .squeeze n ∨ i = .squeezeKey m ∧ j = .squeezeKey n) →
    exec i s = .next t → exec j s = .next u → ∃ more, u.dout = t.dout ++ more

/-! ### ENCRYPT and DECRYPT -/

/-- ENCRYPT and DECRYPT complete from every state with a Keyed instance, for every length (44 R130, R131): as many bytes out
as in, phase Down, and only `buf`, `phase` and the streams touched. -/
def Obligations.CryptCommandsComplete : Prop :=
  ∀ (s : State) (X rest : Bytes) (i : Instr) (d : Bool), Inv Config.P s → s.valid = true → s.mode = .keyed →
    s.din = X ++ rest → (i = .encrypt X.length ∧ d = false ∨ i = .decrypt X.length ∧ d = true) →
    ∃ O t0, (O, t0) = crypt Config.P X d { s with din := rest } ∧ O.length = X.length ∧
      t0.buf.length = Config.P.w ∧
      exec i s = .next { s with
        buf := t0.buf, phase := .down, din := rest, dout := s.dout ++ O, perm := t0.perm
        rsp := s.rsp ++ [0x00000700#32] }

/-- One block of plaintext `M` and its ciphertext `C`, byte by byte (44 R130, R131, 41 R101): the separator XORs `0x01` into
`buf[0]` and `0x80` into `buf[r_keyed_squeeze]`; the keystream is the front of what the permutation answers; `C` is `M` XOR
it; the plaintext is absorbed in both directions, so ENCRYPT of `M` and DECRYPT of `C` end in the same buffer. -/
def Obligations.CryptOneBlock : Prop :=
  ∀ (s : State) (M C rest : Bytes) (B : Bytes), Inv Config.P s → s.valid = true → s.mode = .keyed →
    M.length ≤ Config.P.rKeyedSqueeze →
    XoredWith Config.P (freshBuf Config.P s) B
      (fun j => byteAt 0 0x01#8 j ^^^ byteAt Config.P.rKeyedSqueeze 0x80#8 j) →
    C.length = M.length → (∀ j < M.length, C.getD j 0#8 = M.getD j 0#8 ^^^ (Config.P.f B).getD j 0#8) →
    ∃ D, XoredWith Config.P (Config.P.f B) D (fun j => M.getD j 0#8 ^^^ byteAt M.length 0x01#8 j) ∧
      (s.din = M ++ rest → exec (.encrypt M.length) s = .next { s with
        buf := D, phase := .down, din := rest, dout := s.dout ++ C, perm := s.perm ++ freshCall s ++ [B]
        rsp := s.rsp ++ [0x00000700#32] }) ∧
      (s.din = C ++ rest → exec (.decrypt M.length) s = .next { s with
        buf := D, phase := .down, din := rest, dout := s.dout ++ M, perm := s.perm ++ freshCall s ++ [B]
        rsp := s.rsp ++ [0x00000700#32] })

/-- DECRYPT undoes ENCRYPT (44 R131, R132, 41 R102 (c)): if ENCRYPT of `M` from `s` outputs `C`, DECRYPT of `C` from the
same engine outputs `M` and leaves the same engine; lengths are those of `M`, whatever its length. -/
def Obligations.DecryptUndoesEncrypt : Prop :=
  ∀ (s : State) (M rest : Bytes), Inv Config.P s → s.valid = true → s.mode = .keyed → s.din = M ++ rest →
    ∃ C t u, C.length = M.length ∧ exec (.encrypt M.length) s = .next t ∧ t.dout = s.dout ++ C ∧
      exec (.decrypt M.length) { s with din := C ++ rest } = .next u ∧ u.dout = s.dout ++ M ∧
      SameEngine t u ∧ t.perm = u.perm ∧ t.rsp = u.rsp

/-- After ENCRYPT or DECRYPT the front of the buffer holds the ciphertext of the last chunk, in both directions
(41 R102 (b)). -/
def Obligations.CryptLeavesCiphertext : Prop :=
  ∀ (s t : State) (M C rest : Bytes) (k : Nat), Inv Config.P s → s.valid = true → s.mode = .keyed →
    C.length = M.length → k = (numBlocks M.length Config.P.rKeyedSqueeze - 1) * Config.P.rKeyedSqueeze →
    (s.din = M ++ rest ∧ exec (.encrypt M.length) s = .next t ∧ t.dout = s.dout ++ C ∨
      s.din = C ++ rest ∧ exec (.decrypt C.length) s = .next t ∧ t.dout = s.dout ++ M) →
    t.buf.take (M.length - k) = C.drop k

/-- Output chunk `j` of ENCRYPT and DECRYPT depends only on the state at the start and on the input up to it: the output on
a longer input starts with the output on a shorter one (20 R52). -/
def Obligations.CryptOutputIsStream : Prop :=
  ∀ (s s' t u : State) (X Y rest rest' : Bytes) (d : Bool), Inv Config.P s → s' = { s with din := X ++ Y ++ rest' } →
    s.din = X ++ rest →
    exec (if d then .decrypt X.length else .encrypt X.length) s = .next t →
    exec (if d then .decrypt (X ++ Y).length else .encrypt (X ++ Y).length) s' = .next u →
    ∃ more, u.dout = t.dout ++ more

/-! ### RATCHET -/

/-- RATCHET completes from every state with a Keyed instance (44 R133): it squeezes `r_ratchet` bytes with `0x10` and absorbs
them back, ends in phase Down with `scratch` zero, and outputs nothing. -/
def Obligations.RatchetCompletes : Prop :=
  ∀ (s : State), Inv Config.P s → s.valid = true → s.mode = .keyed →
    ∃ Y s1 s2, (Y, s1) = squeezeAny Config.P Config.P.rRatchet 0x10#8 s ∧ Y.length = Config.P.rRatchet ∧
      s2 = absorbAny Config.P Y Config.P.rKeyedAbsorb 0x00#8 s1 ∧ s2.buf.length = Config.P.w ∧
      exec .ratchet s = .next { s with
        buf := s2.buf, phase := .down, scratch := zeros Config.P.rRatchet, perm := s2.perm
        rsp := s.rsp ++ [0x00000700#32] }

/-- RATCHET over a descriptor whose `r_ratchet` is within both keyed rates (44 R134 (a)): one permutation call, after which
`buf[0 .. r_ratchet]` is zero, `0x01` has been XORed into `buf[r_ratchet]`, and the rest is what the permutation answered. -/
def Obligations.RatchetOneBlock : Prop :=
  ∀ (P : Descriptor) (s : State), P.rRatchet ≤ P.rKeyedSqueeze → P.rRatchet ≤ P.rKeyedAbsorb →
    Inv P s → s.valid = true → s.mode = .keyed →
    ∃ B D, XoredWith P s.buf B (fun j =>
        byteAt 0 (if s.phase = .up then 0x01#8 else 0#8) j ^^^ byteAt (P.w - 1) 0x10#8 j) ∧
      D.length = P.w ∧
      (∀ j < P.w, D.getD j 0#8 =
        if j < P.rRatchet then 0#8 else (P.f B).getD j 0#8 ^^^ byteAt P.rRatchet 0x01#8 j) ∧
      ratchetCommand P s = .next { s with
        buf := D, phase := .down, perm := s.perm ++ [B], rsp := s.rsp ++ [0x00000700#32] }

/-! ### Whole-machine rules -/

/-- The invariant of 10 R31, with the `W` bytes of `buf` (10 R20), holds at reset. -/
def Obligations.InvAtReset : Prop := Inv Config.P State.reset

/-- Every step, from every state with the invariant of 10 R31, leaves a state with it: a command, an illegal word, a reset,
a reset during a command, an idle step. -/
def Obligations.StepKeepsInv : Prop := ∀ s t : State, Inv Config.P s → step s = .next t → Inv Config.P t

/-- Every string sent on `PERM` has `W` bytes (40 R82), and no step takes a word back from a port. That State keeps the
streams of the ports is the model's choice, log entries 3 and 18. -/
def Obligations.StepKeepsStreams : Prop :=
  ∀ s t : State, Inv Config.P s → PermWidths Config.P s → step s = .next t →
    PermWidths Config.P t ∧ (∃ c, t.perm = s.perm ++ c) ∧ (∃ d, t.dout = s.dout ++ d) ∧
      (∃ r, t.rsp = s.rsp ++ r ∧ r.length ≤ 1) ∧ ∃ n, t.din = s.din.drop n

/-- The number of permutation calls of each command (the table of 70 R181, which the spec derives from 41 R98, R100, R102
and 44 R134); none when it ends in an error, an illegal word's included. -/
def Obligations.PermutationCalls : Prop :=
  (∀ (s t : State) (c : Word) (e : Illegal) (rest : List HostInput), s.cmd = .command c :: rest →
    decode c = .illegal e → step s = .next t → t.perm = s.perm) ∧
  ∀ (i : Instr) (s t : State) (w : Word), Inv Config.P s → exec i s = .next t → t.rsp = s.rsp ++ [w] →
    t.perm.length = s.perm.length + (if w.extractLsb' 0 8 = 0x00#8 then callsOf Config.P s i else 0)

/-- Constant time (70 R180): from two states with the same `valid`, `mode`, `phase`, whatever `buf`, payload and output hold,
a command makes the same number of permutation calls, moves the same number of bytes on each port, and gives the same
response and flags. -/
def Obligations.LengthsDoNotDependOnData : Prop :=
  ∀ (i : Instr) (s s' t t' : State), Inv Config.P s → Inv Config.P s' →
    s.valid = s'.valid → s.mode = s'.mode → s.phase = s'.phase → PayloadReady i s → PayloadReady i s' →
    exec i s = .next t → exec i s' = .next t' →
    t.perm.length - s.perm.length = t'.perm.length - s'.perm.length ∧
    t.dout.length - s.dout.length = t'.dout.length - s'.dout.length ∧
    s.din.length - t.din.length = s'.din.length - t'.din.length ∧
    t.rsp.drop s.rsp.length = t'.rsp.drop s'.rsp.length ∧
    t.valid = t'.valid ∧ t.mode = t'.mode ∧ t.phase = t'.phase

/-- The output of a command is rate-limited: at most `squeeze_rate` bytes per permutation call (70 R179), the calls counted
on the `PERM` stream the model keeps (log entry 18). -/
def Obligations.OutputIsRateLimited : Prop :=
  ∀ (i : Instr) (s t : State), Inv Config.P s → exec i s = .next t →
    t.dout.length - s.dout.length ≤ s.squeezeRate * (t.perm.length - s.perm.length)

/-! ### Façades -/

/-- A hash of a message of at most one block (45 R141, 41 R93, R95): the digest of `n` bytes, `n` at most one block, is the
front of what the permutation answers to the message, its padding, and `0x03` at `W-1`. -/
def Obligations.HashOneBlock : Prop :=
  ∀ (s : State) (X : Bytes) (n : Nat), X.length ≤ Config.P.rAbsorb → n ≤ Config.P.rSqueeze →
    (absorbTx X).instr.wf = true → (squeezeTx n).instr.wf = true →
    ∃ B t, XoredWith Config.P (zeros Config.P.w) B (fun i =>
        X.getD i 0#8 ^^^ byteAt X.length 0x01#8 i ^^^ byteAt (Config.P.w - 1) 0x03#8 i) ∧
      Sys2Proof.core.run 3 (presentScript (hashNew ++ hashUpdate X ++ hashFinalize n) s) = .next t ∧
      t.dout = s.dout ++ (Config.P.f B).take n ∧
      t.rsp = s.rsp ++ [0x00000100#32, 0x00000500#32, 0x00000100#32] ∧ t.cmd = s.cmd ∧ t.din = s.din

/-- A squeeze straight after construction (43 R122, 95 S1): the first permutation input is `01 00 .. 00`. -/
def Obligations.HashOfNoInput : Prop :=
  ∀ (s : State) (n : Nat), n ≤ Config.P.rSqueeze → (squeezeTx n).instr.wf = true →
    ∃ t, Sys2Proof.core.run 2 (presentScript (hashNew ++ hashFinalize n) s) = .next t ∧
      t.dout = s.dout ++ (Config.P.f (0x01#8 :: zeros (Config.P.w - 1))).take n ∧
      t.perm = s.perm ++ [0x01#8 :: zeros (Config.P.w - 1)]

/-- AEAD round trip (45 R142 to R146): `open` of what `seal` gave, each after a fresh INIT_KEYED with the same key, yields the
plaintext and the same tag, for every descriptor, key, nonce, associated data and message that fit their fields. -/
def Obligations.AeadRoundTrip : Prop :=
  ∀ (s : State) (key nonce ad M : Bytes) (tagLen : Nat), key.length + 1 ≤ Config.P.rKeyedAbsorb →
    (∀ tx ∈ aeadNew key ++ aeadSeal nonce ad M tagLen, tx.instr.wf = true) →
    ∃ C tag t u, C.length = M.length ∧ tag.length = tagLen ∧
      Sys2Proof.core.run 5 (presentScript (aeadNew key ++ aeadSeal nonce ad M tagLen) s) = .next t ∧
      t.dout = s.dout ++ C ++ tag ∧
      Sys2Proof.core.run 5 (presentScript (aeadNew key ++ aeadOpen nonce ad C tagLen) s) = .next u ∧
      u.dout = s.dout ++ M ++ tag ∧ openResult M tag tag = .plaintext M

/-- Every use of a keyed instance, whatever commands it is made of and whether they succeed or not, ends in the zeroised
state (45 R145 (c), R147; 70 R179). -/
def Obligations.KeyedUseEndsZeroised : Prop :=
  ∀ (s : State) (key id counter : Bytes) (body : List Transaction),
    (∀ tx ∈ keyedUse key id counter body, tx.instr.wf = true ∧ tx.payload.length = payloadLen tx.instr) →
    ∃ t, Sys2Proof.core.run (body.length + 2) (presentScript (keyedUse key id counter body) s) = .next t ∧
      Zeroised Config.P t ∧ t.cmd = s.cmd ∧ t.din = s.din

/-- A use for `open` ends in the zeroised state whatever the comparison of the tags gives, and its `ZEROIZE` delivers nothing
after what the comparison was made on (45 R144, R145 (c)). What is compared when a command of `open` did not answer `OK` is
the model's choice, log entry 20; the statement does not rest on it. -/
def Obligations.OpenUseEndsZeroised : Prop :=
  ∀ (s : State) (key nonce ad ct tag : Bytes) (tagLen : Nat),
    (∀ tx ∈ aeadNew key ++ aeadOpen nonce ad ct tagLen, tx.instr.wf = true) →
    ∃ u t, Sys2Proof.core.run 5 (presentScript (aeadNew key ++ aeadOpen nonce ad ct tagLen) s) = .next u ∧
      Sys2Proof.core.run 6
        (presentScript (openUse key nonce ad ct tagLen (openVerdict s u ct.length tag)) s) = .next t ∧
      Zeroised Config.P t ∧ t.dout = u.dout ∧ t.cmd = s.cmd ∧ t.din = s.din

/-- The host's comparison of tags (45 R144, R145 (a)): it releases the plaintext iff the tags are equal, and how many pairs
of bytes it reads depends on the lengths only. That this count stands for its time is the model's reading, log entry 11. -/
def Obligations.TagComparison : Prop :=
  ∀ m expected tag : Bytes,
    openResult m expected tag = (if expected = tag then .plaintext m else .tagMismatch) ∧
    (compareTags expected tag).2 = min expected.length tag.length

/-- Everything `open` does once its commands have been answered (45 R144, 60 R159), with a key that fits: as many bytes held
back as the ciphertext has and an expected tag of `tag_len`; when that is not the tag, the host's copy of the plaintext is
overwritten with as many zeros, `ZEROIZE` is issued and `TagMismatch` returned; when it is, the copy is what is released. -/
def Obligations.OpenOutcome : Prop :=
  ∀ (s : State) (key nonce ad ct tag : Bytes) (tagLen : Nat), key.length + 1 ≤ Config.P.rKeyedAbsorb →
    (∀ tx ∈ aeadNew key ++ aeadOpen nonce ad ct tagLen, tx.instr.wf = true) →
    ∃ u held expected, Sys2Proof.core.run 5 (presentScript (aeadNew key ++ aeadOpen nonce ad ct tagLen) s) = .next u ∧
      u.dout = s.dout ++ held ++ expected ∧ held.length = ct.length ∧ expected.length = tagLen ∧
      heldBack s u ct.length = held ∧ expectedTag s u ct.length = expected ∧
      (expected ≠ tag → openVerdict s u ct.length tag = .tagMismatch ∧
        copyAfterOpen (heldBack s u ct.length) (openVerdict s u ct.length tag) = List.replicate ct.length 0x00#8 ∧
        (afterOpen (openVerdict s u ct.length tag)).map (·.instr) = [.zeroize]) ∧
      (expected = tag → openVerdict s u ct.length tag = .plaintext held ∧
        copyAfterOpen (heldBack s u ct.length) (openVerdict s u ct.length tag) = held ∧
        afterOpen (openVerdict s u ct.length tag) = [])
end

