-- ==== Sys2Proof/Laws/Bytes.lean ====
section
/-! SUPPORT. What the byte-string operations of Operands.lean do: lengths, single bytes, and the cut into blocks. -/

namespace Sys2Proof.Machine

@[simp] theorem zeros_length (n : Nat) : (zeros n).length = n := by simp [zeros]

theorem zeros_getD (n i : Nat) : (zeros n).getD i 0#8 = 0#8 := by
  simp only [zeros, List.getD_eq_getElem?_getD, List.getElem?_replicate]
  split <;> rfl

theorem slice_zero (X : Bytes) (n : Nat) : slice X 0 n = X.take n := by simp [slice]

theorem slice_length (X : Bytes) (a b : Nat) : (slice X a b).length = min b X.length - a := by simp [slice]

@[simp] theorem xorFront_nil (b : Bytes) : xorFront b [] = b := by cases b <;> rfl

@[simp] theorem xorFront_length (b X : Bytes) : (xorFront b X).length = b.length := by
  induction b generalizing X with
  | nil => cases X <;> rfl
  | cons y ys ih => cases X <;> simp [xorFront, ih]

/-- Byte `i` of the string goes to offset `i` (20 R42). -/
theorem xorFront_getD (b X : Bytes) (i : Nat) (h : i < b.length) :
    (xorFront b X).getD i 0#8 = b.getD i 0#8 ^^^ X.getD i 0#8 := by
  induction b generalizing X i with
  | nil => simp at h
  | cons y ys ih =>
    cases X with
    | nil => simp
    | cons x xs =>
      cases i with
      | zero => simp [xorFront]
      | succ i => simpa [xorFront] using ih xs i (by simpa using h)

/-- One byte after a XOR into one offset. -/
theorem modify_getD (b : Bytes) (j i : Nat) (v : Byte) (h : i < b.length) :
    (b.modify j (· ^^^ v)).getD i 0#8 = b.getD i 0#8 ^^^ (if i = j then v else 0#8) := by
  rw [List.getD_eq_getElem _ _ (by simpa using h), List.getD_eq_getElem _ _ h, List.getElem_modify]
  by_cases e : i = j
  · simp [e]
  · simp [e, Ne.symm e]

@[simp] theorem xorBytes_length (A B : Bytes) : (xorBytes A B).length = min A.length B.length := by
  simp [xorBytes]

/-- XOR twice with the same string gives the string back (41 R92). -/
theorem xorBytes_cancel (A K : Bytes) (h : A.length ≤ K.length) : xorBytes (xorBytes A K) K = A := by
  induction A generalizing K with
  | nil => simp [xorBytes]
  | cons a as ih =>
    cases K with
    | nil => simp at h
    | cons k ks =>
      have := ih ks (by simpa using h)
      simp only [xorBytes] at this
      simp [xorBytes, this]

/-- XORing into a buffer the bytes that stand at its front leaves the XOR of both there. -/
theorem xorFront_take (b X : Bytes) (h : X.length ≤ b.length) :
    (xorFront b X).take X.length = xorBytes X (b.take X.length) := by
  induction b generalizing X with
  | nil => cases X <;> simp_all [xorBytes]
  | cons y ys ih =>
    cases X with
    | nil => simp [xorBytes]
    | cons x xs =>
      have := ih xs (by simpa using h)
      simp only [xorBytes] at this
      simp [xorFront, xorBytes, this, BitVec.xor_comm]

theorem numBlocks_pos (l r : Nat) : 1 ≤ numBlocks l r := by simp [numBlocks]

/-- A string of at most `r` bytes is one block (41 R91). -/
theorem numBlocks_of_le {l r : Nat} (h : l ≤ r) : numBlocks l r = 1 := by
  rcases Nat.eq_zero_or_pos r with rfl | hr
  · simp [numBlocks]
  · have : (l + r - 1) / r ≤ 1 := by
      rw [← Nat.lt_succ_iff, Nat.div_lt_iff_lt_mul hr]; omega
    simp only [numBlocks]; omega

/-- A longer string has one block more than what is left after its first `r` bytes (41 R91). -/
theorem numBlocks_of_lt {l r : Nat} (hr : 0 < r) (h : r < l) : numBlocks l r = numBlocks (l - r) r + 1 := by
  have e : l + r - 1 = (l - r + r - 1) + r := by omega
  have p : 1 ≤ (l - r + r - 1) / r := by rw [Nat.one_le_div_iff hr]; omega
  simp only [numBlocks, e, Nat.add_div_right _ hr]; omega

/-- The string that is one block is its only chunk (41 R91). -/
theorem split_of_le {X : Bytes} {r : Nat} (h : X.length ≤ r) : split X r = [X] := by
  simp [split, numBlocks_of_le h, slice, List.range_succ, h]

/-- The first chunk of a longer string has `r` bytes; the rest is cut from its own start (41 R91). -/
theorem split_of_lt {X : Bytes} {r : Nat} (hr : 0 < r) (h : r < X.length) :
    split X r = X.take r :: split (X.drop r) r := by
  simp only [split, numBlocks_of_lt hr h, List.range_succ_eq_map, List.map_cons, List.map_map, List.length_drop]
  congr 1
  · simp only [slice, Nat.zero_mul, Nat.zero_add, Nat.one_mul, List.drop_zero]
    rw [Nat.min_eq_left (by omega)]
  · apply List.map_congr_left
    intro j _
    simp only [Function.comp_apply, slice, Nat.succ_eq_add_one]
    rw [List.take_drop, List.drop_drop]
    congr 2
    · ring
    · have : (j + 1 + 1) * r = (j + 1) * r + r := by ring
      omega

/-- Induction over a string cut into blocks of `r` bytes. -/
theorem block_induction {r : Nat} (hr : 0 < r) {C : Bytes → Prop} (one : ∀ X, X.length ≤ r → C X)
    (more : ∀ X, r < X.length → C (X.drop r) → C X) (X : Bytes) : C X := by
  induction h : X.length using Nat.strong_induction_on generalizing X with
  | _ n ih =>
    by_cases hX : X.length ≤ r
    · exact one X hX
    · exact more X (by omega) (ih (X.drop r).length (by simp; omega) _ rfl)

theorem split_length (X : Bytes) (r : Nat) : (split X r).length = numBlocks X.length r := by simp [split]

/-- Every chunk has at most `r` bytes (41 R91). -/
theorem split_chunk_le {X : Bytes} {r : Nat} {c : Bytes} (h : c ∈ split X r) : c.length ≤ r := by
  simp only [split, List.mem_map, List.mem_range] at h
  obtain ⟨j, _, rfl⟩ := h
  rw [slice_length]
  have : (j + 1) * r = j * r + r := by ring
  omega

/-- The chunks, put together, are the string (41 R91). -/
theorem split_flatten {r : Nat} (hr : 0 < r) (X : Bytes) : (split X r).flatten = X := by
  induction X using block_induction hr with
  | one X h => simp [split_of_le h]
  | more X h ih => simp [split_of_lt hr h, ih]

end Sys2Proof.Machine
end

