-- ==== Sys2Proof/Laws/State.lean ====
section
/-! SUPPORT. What each write of State.lean's record leaves in each field, one lemma per field per write. -/

namespace Sys2Proof.Machine

@[simp] theorem State.setBuf_buf (s : State) (x : Bytes) : (s.setBuf x).buf = x := rfl
@[simp] theorem State.setBuf_phase (s : State) (x : Bytes) : (s.setBuf x).phase = s.phase := rfl
@[simp] theorem State.setBuf_mode (s : State) (x : Bytes) : (s.setBuf x).mode = s.mode := rfl
@[simp] theorem State.setBuf_absorbRate (s : State) (x : Bytes) : (s.setBuf x).absorbRate = s.absorbRate := rfl
@[simp] theorem State.setBuf_squeezeRate (s : State) (x : Bytes) : (s.setBuf x).squeezeRate = s.squeezeRate := rfl
@[simp] theorem State.setBuf_valid (s : State) (x : Bytes) : (s.setBuf x).valid = s.valid := rfl
@[simp] theorem State.setBuf_scratch (s : State) (x : Bytes) : (s.setBuf x).scratch = s.scratch := rfl
@[simp] theorem State.setBuf_cmd (s : State) (x : Bytes) : (s.setBuf x).cmd = s.cmd := rfl
@[simp] theorem State.setBuf_din (s : State) (x : Bytes) : (s.setBuf x).din = s.din := rfl
@[simp] theorem State.setBuf_dout (s : State) (x : Bytes) : (s.setBuf x).dout = s.dout := rfl
@[simp] theorem State.setBuf_rsp (s : State) (x : Bytes) : (s.setBuf x).rsp = s.rsp := rfl
@[simp] theorem State.setBuf_perm (s : State) (x : Bytes) : (s.setBuf x).perm = s.perm := rfl
@[simp] theorem State.setBuf_freeCount (s : State) (x : Bytes) : (s.setBuf x).freeCount = s.freeCount := rfl

@[simp] theorem State.setPhase_buf (s : State) (x : Phase) : (s.setPhase x).buf = s.buf := rfl
@[simp] theorem State.setPhase_phase (s : State) (x : Phase) : (s.setPhase x).phase = x := rfl
@[simp] theorem State.setPhase_mode (s : State) (x : Phase) : (s.setPhase x).mode = s.mode := rfl
@[simp] theorem State.setPhase_absorbRate (s : State) (x : Phase) : (s.setPhase x).absorbRate = s.absorbRate := rfl
@[simp] theorem State.setPhase_squeezeRate (s : State) (x : Phase) : (s.setPhase x).squeezeRate = s.squeezeRate := rfl
@[simp] theorem State.setPhase_valid (s : State) (x : Phase) : (s.setPhase x).valid = s.valid := rfl
@[simp] theorem State.setPhase_scratch (s : State) (x : Phase) : (s.setPhase x).scratch = s.scratch := rfl
@[simp] theorem State.setPhase_cmd (s : State) (x : Phase) : (s.setPhase x).cmd = s.cmd := rfl
@[simp] theorem State.setPhase_din (s : State) (x : Phase) : (s.setPhase x).din = s.din := rfl
@[simp] theorem State.setPhase_dout (s : State) (x : Phase) : (s.setPhase x).dout = s.dout := rfl
@[simp] theorem State.setPhase_rsp (s : State) (x : Phase) : (s.setPhase x).rsp = s.rsp := rfl
@[simp] theorem State.setPhase_perm (s : State) (x : Phase) : (s.setPhase x).perm = s.perm := rfl
@[simp] theorem State.setPhase_freeCount (s : State) (x : Phase) : (s.setPhase x).freeCount = s.freeCount := rfl

@[simp] theorem State.setMode_buf (s : State) (x : Mode) : (s.setMode x).buf = s.buf := rfl
@[simp] theorem State.setMode_phase (s : State) (x : Mode) : (s.setMode x).phase = s.phase := rfl
@[simp] theorem State.setMode_mode (s : State) (x : Mode) : (s.setMode x).mode = x := rfl
@[simp] theorem State.setMode_absorbRate (s : State) (x : Mode) : (s.setMode x).absorbRate = s.absorbRate := rfl
@[simp] theorem State.setMode_squeezeRate (s : State) (x : Mode) : (s.setMode x).squeezeRate = s.squeezeRate := rfl
@[simp] theorem State.setMode_valid (s : State) (x : Mode) : (s.setMode x).valid = s.valid := rfl
@[simp] theorem State.setMode_scratch (s : State) (x : Mode) : (s.setMode x).scratch = s.scratch := rfl
@[simp] theorem State.setMode_cmd (s : State) (x : Mode) : (s.setMode x).cmd = s.cmd := rfl
@[simp] theorem State.setMode_din (s : State) (x : Mode) : (s.setMode x).din = s.din := rfl
@[simp] theorem State.setMode_dout (s : State) (x : Mode) : (s.setMode x).dout = s.dout := rfl
@[simp] theorem State.setMode_rsp (s : State) (x : Mode) : (s.setMode x).rsp = s.rsp := rfl
@[simp] theorem State.setMode_perm (s : State) (x : Mode) : (s.setMode x).perm = s.perm := rfl
@[simp] theorem State.setMode_freeCount (s : State) (x : Mode) : (s.setMode x).freeCount = s.freeCount := rfl

@[simp] theorem State.setRates_buf (s : State) (x y : Nat) : (s.setRates x y).buf = s.buf := rfl
@[simp] theorem State.setRates_phase (s : State) (x y : Nat) : (s.setRates x y).phase = s.phase := rfl
@[simp] theorem State.setRates_mode (s : State) (x y : Nat) : (s.setRates x y).mode = s.mode := rfl
@[simp] theorem State.setRates_absorbRate (s : State) (x y : Nat) : (s.setRates x y).absorbRate = x := rfl
@[simp] theorem State.setRates_squeezeRate (s : State) (x y : Nat) : (s.setRates x y).squeezeRate = y := rfl
@[simp] theorem State.setRates_valid (s : State) (x y : Nat) : (s.setRates x y).valid = s.valid := rfl
@[simp] theorem State.setRates_scratch (s : State) (x y : Nat) : (s.setRates x y).scratch = s.scratch := rfl
@[simp] theorem State.setRates_cmd (s : State) (x y : Nat) : (s.setRates x y).cmd = s.cmd := rfl
@[simp] theorem State.setRates_din (s : State) (x y : Nat) : (s.setRates x y).din = s.din := rfl
@[simp] theorem State.setRates_dout (s : State) (x y : Nat) : (s.setRates x y).dout = s.dout := rfl
@[simp] theorem State.setRates_rsp (s : State) (x y : Nat) : (s.setRates x y).rsp = s.rsp := rfl
@[simp] theorem State.setRates_perm (s : State) (x y : Nat) : (s.setRates x y).perm = s.perm := rfl
@[simp] theorem State.setRates_freeCount (s : State) (x y : Nat) : (s.setRates x y).freeCount = s.freeCount := rfl

@[simp] theorem State.setValid_buf (s : State) (x : Bool) : (s.setValid x).buf = s.buf := rfl
@[simp] theorem State.setValid_phase (s : State) (x : Bool) : (s.setValid x).phase = s.phase := rfl
@[simp] theorem State.setValid_mode (s : State) (x : Bool) : (s.setValid x).mode = s.mode := rfl
@[simp] theorem State.setValid_absorbRate (s : State) (x : Bool) : (s.setValid x).absorbRate = s.absorbRate := rfl
@[simp] theorem State.setValid_squeezeRate (s : State) (x : Bool) : (s.setValid x).squeezeRate = s.squeezeRate := rfl
@[simp] theorem State.setValid_valid (s : State) (x : Bool) : (s.setValid x).valid = x := rfl
@[simp] theorem State.setValid_scratch (s : State) (x : Bool) : (s.setValid x).scratch = s.scratch := rfl
@[simp] theorem State.setValid_cmd (s : State) (x : Bool) : (s.setValid x).cmd = s.cmd := rfl
@[simp] theorem State.setValid_din (s : State) (x : Bool) : (s.setValid x).din = s.din := rfl
@[simp] theorem State.setValid_dout (s : State) (x : Bool) : (s.setValid x).dout = s.dout := rfl
@[simp] theorem State.setValid_rsp (s : State) (x : Bool) : (s.setValid x).rsp = s.rsp := rfl
@[simp] theorem State.setValid_perm (s : State) (x : Bool) : (s.setValid x).perm = s.perm := rfl
@[simp] theorem State.setValid_freeCount (s : State) (x : Bool) : (s.setValid x).freeCount = s.freeCount := rfl

@[simp] theorem State.setScratch_buf (s : State) (x : Bytes) : (s.setScratch x).buf = s.buf := rfl
@[simp] theorem State.setScratch_phase (s : State) (x : Bytes) : (s.setScratch x).phase = s.phase := rfl
@[simp] theorem State.setScratch_mode (s : State) (x : Bytes) : (s.setScratch x).mode = s.mode := rfl
@[simp] theorem State.setScratch_absorbRate (s : State) (x : Bytes) : (s.setScratch x).absorbRate = s.absorbRate := rfl
@[simp] theorem State.setScratch_squeezeRate (s : State) (x : Bytes) : (s.setScratch x).squeezeRate = s.squeezeRate := rfl
@[simp] theorem State.setScratch_valid (s : State) (x : Bytes) : (s.setScratch x).valid = s.valid := rfl
@[simp] theorem State.setScratch_scratch (s : State) (x : Bytes) : (s.setScratch x).scratch = x := rfl
@[simp] theorem State.setScratch_cmd (s : State) (x : Bytes) : (s.setScratch x).cmd = s.cmd := rfl
@[simp] theorem State.setScratch_din (s : State) (x : Bytes) : (s.setScratch x).din = s.din := rfl
@[simp] theorem State.setScratch_dout (s : State) (x : Bytes) : (s.setScratch x).dout = s.dout := rfl
@[simp] theorem State.setScratch_rsp (s : State) (x : Bytes) : (s.setScratch x).rsp = s.rsp := rfl
@[simp] theorem State.setScratch_perm (s : State) (x : Bytes) : (s.setScratch x).perm = s.perm := rfl
@[simp] theorem State.setScratch_freeCount (s : State) (x : Bytes) : (s.setScratch x).freeCount = s.freeCount := rfl

@[simp] theorem State.setCmd_buf (s : State) (x : List HostInput) : (s.setCmd x).buf = s.buf := rfl
@[simp] theorem State.setCmd_phase (s : State) (x : List HostInput) : (s.setCmd x).phase = s.phase := rfl
@[simp] theorem State.setCmd_mode (s : State) (x : List HostInput) : (s.setCmd x).mode = s.mode := rfl
@[simp] theorem State.setCmd_absorbRate (s : State) (x : List HostInput) : (s.setCmd x).absorbRate = s.absorbRate := rfl
@[simp] theorem State.setCmd_squeezeRate (s : State) (x : List HostInput) : (s.setCmd x).squeezeRate = s.squeezeRate := rfl
@[simp] theorem State.setCmd_valid (s : State) (x : List HostInput) : (s.setCmd x).valid = s.valid := rfl
@[simp] theorem State.setCmd_scratch (s : State) (x : List HostInput) : (s.setCmd x).scratch = s.scratch := rfl
@[simp] theorem State.setCmd_cmd (s : State) (x : List HostInput) : (s.setCmd x).cmd = x := rfl
@[simp] theorem State.setCmd_din (s : State) (x : List HostInput) : (s.setCmd x).din = s.din := rfl
@[simp] theorem State.setCmd_dout (s : State) (x : List HostInput) : (s.setCmd x).dout = s.dout := rfl
@[simp] theorem State.setCmd_rsp (s : State) (x : List HostInput) : (s.setCmd x).rsp = s.rsp := rfl
@[simp] theorem State.setCmd_perm (s : State) (x : List HostInput) : (s.setCmd x).perm = s.perm := rfl
@[simp] theorem State.setCmd_freeCount (s : State) (x : List HostInput) : (s.setCmd x).freeCount = s.freeCount := rfl

@[simp] theorem State.setDin_buf (s : State) (x : Bytes) : (s.setDin x).buf = s.buf := rfl
@[simp] theorem State.setDin_phase (s : State) (x : Bytes) : (s.setDin x).phase = s.phase := rfl
@[simp] theorem State.setDin_mode (s : State) (x : Bytes) : (s.setDin x).mode = s.mode := rfl
@[simp] theorem State.setDin_absorbRate (s : State) (x : Bytes) : (s.setDin x).absorbRate = s.absorbRate := rfl
@[simp] theorem State.setDin_squeezeRate (s : State) (x : Bytes) : (s.setDin x).squeezeRate = s.squeezeRate := rfl
@[simp] theorem State.setDin_valid (s : State) (x : Bytes) : (s.setDin x).valid = s.valid := rfl
@[simp] theorem State.setDin_scratch (s : State) (x : Bytes) : (s.setDin x).scratch = s.scratch := rfl
@[simp] theorem State.setDin_cmd (s : State) (x : Bytes) : (s.setDin x).cmd = s.cmd := rfl
@[simp] theorem State.setDin_din (s : State) (x : Bytes) : (s.setDin x).din = x := rfl
@[simp] theorem State.setDin_dout (s : State) (x : Bytes) : (s.setDin x).dout = s.dout := rfl
@[simp] theorem State.setDin_rsp (s : State) (x : Bytes) : (s.setDin x).rsp = s.rsp := rfl
@[simp] theorem State.setDin_perm (s : State) (x : Bytes) : (s.setDin x).perm = s.perm := rfl
@[simp] theorem State.setDin_freeCount (s : State) (x : Bytes) : (s.setDin x).freeCount = s.freeCount := rfl

@[simp] theorem State.doutWrite_buf (s : State) (x : Bytes) : (s.doutWrite x).buf = s.buf := rfl
@[simp] theorem State.doutWrite_phase (s : State) (x : Bytes) : (s.doutWrite x).phase = s.phase := rfl
@[simp] theorem State.doutWrite_mode (s : State) (x : Bytes) : (s.doutWrite x).mode = s.mode := rfl
@[simp] theorem State.doutWrite_absorbRate (s : State) (x : Bytes) : (s.doutWrite x).absorbRate = s.absorbRate := rfl
@[simp] theorem State.doutWrite_squeezeRate (s : State) (x : Bytes) : (s.doutWrite x).squeezeRate = s.squeezeRate := rfl
@[simp] theorem State.doutWrite_valid (s : State) (x : Bytes) : (s.doutWrite x).valid = s.valid := rfl
@[simp] theorem State.doutWrite_scratch (s : State) (x : Bytes) : (s.doutWrite x).scratch = s.scratch := rfl
@[simp] theorem State.doutWrite_cmd (s : State) (x : Bytes) : (s.doutWrite x).cmd = s.cmd := rfl
@[simp] theorem State.doutWrite_din (s : State) (x : Bytes) : (s.doutWrite x).din = s.din := rfl
@[simp] theorem State.doutWrite_dout (s : State) (x : Bytes) : (s.doutWrite x).dout = s.dout ++ x := rfl
@[simp] theorem State.doutWrite_rsp (s : State) (x : Bytes) : (s.doutWrite x).rsp = s.rsp := rfl
@[simp] theorem State.doutWrite_perm (s : State) (x : Bytes) : (s.doutWrite x).perm = s.perm := rfl
@[simp] theorem State.doutWrite_freeCount (s : State) (x : Bytes) : (s.doutWrite x).freeCount = s.freeCount := rfl

@[simp] theorem State.rspWrite_buf (s : State) (x : Word) : (s.rspWrite x).buf = s.buf := rfl
@[simp] theorem State.rspWrite_phase (s : State) (x : Word) : (s.rspWrite x).phase = s.phase := rfl
@[simp] theorem State.rspWrite_mode (s : State) (x : Word) : (s.rspWrite x).mode = s.mode := rfl
@[simp] theorem State.rspWrite_absorbRate (s : State) (x : Word) : (s.rspWrite x).absorbRate = s.absorbRate := rfl
@[simp] theorem State.rspWrite_squeezeRate (s : State) (x : Word) : (s.rspWrite x).squeezeRate = s.squeezeRate := rfl
@[simp] theorem State.rspWrite_valid (s : State) (x : Word) : (s.rspWrite x).valid = s.valid := rfl
@[simp] theorem State.rspWrite_scratch (s : State) (x : Word) : (s.rspWrite x).scratch = s.scratch := rfl
@[simp] theorem State.rspWrite_cmd (s : State) (x : Word) : (s.rspWrite x).cmd = s.cmd := rfl
@[simp] theorem State.rspWrite_din (s : State) (x : Word) : (s.rspWrite x).din = s.din := rfl
@[simp] theorem State.rspWrite_dout (s : State) (x : Word) : (s.rspWrite x).dout = s.dout := rfl
@[simp] theorem State.rspWrite_rsp (s : State) (x : Word) : (s.rspWrite x).rsp = s.rsp ++ [x] := rfl
@[simp] theorem State.rspWrite_perm (s : State) (x : Word) : (s.rspWrite x).perm = s.perm := rfl
@[simp] theorem State.rspWrite_freeCount (s : State) (x : Word) : (s.rspWrite x).freeCount = s.freeCount := rfl

@[simp] theorem State.permWrite_buf (s : State) (x : List Bytes) : (s.permWrite x).buf = s.buf := rfl
@[simp] theorem State.permWrite_phase (s : State) (x : List Bytes) : (s.permWrite x).phase = s.phase := rfl
@[simp] theorem State.permWrite_mode (s : State) (x : List Bytes) : (s.permWrite x).mode = s.mode := rfl
@[simp] theorem State.permWrite_absorbRate (s : State) (x : List Bytes) : (s.permWrite x).absorbRate = s.absorbRate := rfl
@[simp] theorem State.permWrite_squeezeRate (s : State) (x : List Bytes) : (s.permWrite x).squeezeRate = s.squeezeRate := rfl
@[simp] theorem State.permWrite_valid (s : State) (x : List Bytes) : (s.permWrite x).valid = s.valid := rfl
@[simp] theorem State.permWrite_scratch (s : State) (x : List Bytes) : (s.permWrite x).scratch = s.scratch := rfl
@[simp] theorem State.permWrite_cmd (s : State) (x : List Bytes) : (s.permWrite x).cmd = s.cmd := rfl
@[simp] theorem State.permWrite_din (s : State) (x : List Bytes) : (s.permWrite x).din = s.din := rfl
@[simp] theorem State.permWrite_dout (s : State) (x : List Bytes) : (s.permWrite x).dout = s.dout := rfl
@[simp] theorem State.permWrite_rsp (s : State) (x : List Bytes) : (s.permWrite x).rsp = s.rsp := rfl
@[simp] theorem State.permWrite_perm (s : State) (x : List Bytes) : (s.permWrite x).perm = s.perm ++ x := rfl
@[simp] theorem State.permWrite_freeCount (s : State) (x : List Bytes) : (s.permWrite x).freeCount = s.freeCount := rfl

@[simp] theorem State.useFree_buf (s : State) (x : Nat) : (s.useFree x).buf = s.buf := rfl
@[simp] theorem State.useFree_phase (s : State) (x : Nat) : (s.useFree x).phase = s.phase := rfl
@[simp] theorem State.useFree_mode (s : State) (x : Nat) : (s.useFree x).mode = s.mode := rfl
@[simp] theorem State.useFree_absorbRate (s : State) (x : Nat) : (s.useFree x).absorbRate = s.absorbRate := rfl
@[simp] theorem State.useFree_squeezeRate (s : State) (x : Nat) : (s.useFree x).squeezeRate = s.squeezeRate := rfl
@[simp] theorem State.useFree_valid (s : State) (x : Nat) : (s.useFree x).valid = s.valid := rfl
@[simp] theorem State.useFree_scratch (s : State) (x : Nat) : (s.useFree x).scratch = s.scratch := rfl
@[simp] theorem State.useFree_cmd (s : State) (x : Nat) : (s.useFree x).cmd = s.cmd := rfl
@[simp] theorem State.useFree_din (s : State) (x : Nat) : (s.useFree x).din = s.din := rfl
@[simp] theorem State.useFree_dout (s : State) (x : Nat) : (s.useFree x).dout = s.dout := rfl
@[simp] theorem State.useFree_rsp (s : State) (x : Nat) : (s.useFree x).rsp = s.rsp := rfl
@[simp] theorem State.useFree_perm (s : State) (x : Nat) : (s.useFree x).perm = s.perm := rfl
@[simp] theorem State.useFree_freeCount (s : State) (x : Nat) : (s.useFree x).freeCount = s.freeCount + x := rfl

end Sys2Proof.Machine
end

