-- ==== Sys2Proof/Laws/Ops.lean ====
section
/-! SUPPORT. Everything the shared operations of Ops.lean can do: zeroisation, the ports, how a command runs and ends. -/

namespace Sys2Proof.Machine

/-- Zeroisation, in one record (42 R110). -/
theorem zeroise_eq (P : Descriptor) (s : State) :
    zeroise P s = { s with
      buf := zeros P.w, phase := .up, mode := .hash, absorbRate := 0, squeezeRate := 0, valid := false,
      scratch := zeros P.rRatchet } := rfl

theorem zeroise_zeroised (P : Descriptor) (s : State) : Zeroised P (zeroise P s) :=
  ⟨rfl, rfl, rfl, rfl, rfl, rfl, rfl⟩

theorem Zeroised.inv {P : Descriptor} {s : State} (h : Zeroised P s) : Inv P s where
  width := by simp [State.BufWidth, h.1]
  scratch := h.2.2.2.2.2.2
  noInstance := fun _ => h
  rates := fun v => by simp [h.2.2.2.2.2.1] at v

theorem zeroise_inv (P : Descriptor) (s : State) : Inv P (zeroise P s) := (zeroise_zeroised P s).inv

theorem resetOf_zeroised (P : Descriptor) : Zeroised P (State.resetOf P) :=
  ⟨rfl, rfl, rfl, rfl, rfl, rfl, rfl⟩

/-- What reading the payload gives (70 R175). -/
theorem dinRead_ready {n : Nat} {s : State} (h : n ≤ s.din.length) :
    dinRead n s = some (s.din.take n, s.setDin (s.din.drop n)) := by simp [dinRead, h]

theorem dinRead_short {n : Nat} {s : State} (h : s.din.length < n) : dinRead n s = none := by
  simp [dinRead, Nat.not_le.mpr h]

/-- The end of a command, in one record (20 R48). -/
theorem finish_eq (r : Reply) :
    r.finish = { r.state with
      dout := r.state.dout ++ r.out, rsp := r.state.rsp ++ [responseWord r.status r.state] } := rfl

/-- The reply a command ends with once its payload has been taken (60 R155 steps 4 to 6). -/
def replyOf (i : Instr) (rule : Bytes → State → Reply) (X : Bytes) (s : State) : Reply :=
  if needsInstance i && !s.valid then raise .errNoInstance s
  else if needsKeyed i && decide (s.mode = .hash) then raise .errMode s
  else rule X s

theorem runCommand_ready {i : Instr} {rule : Bytes → State → Reply} {s : State} (h : PayloadReady i s) :
    runCommand i rule s =
      .next (replyOf i rule (s.din.take (payloadLen i)) (s.setDin (s.din.drop (payloadLen i)))).finish := by
  simp only [runCommand, dinRead_ready h]; rfl

theorem runCommand_short {i : Instr} {rule : Bytes → State → Reply} {s : State}
    (h : s.din.length < payloadLen i) : runCommand i rule s = .fault .stuckAwaitingPayload := by
  simp only [runCommand, dinRead_short h]

/-- Everything a command can do: wait for payload for ever, or answer. -/
theorem runCommand_cases (i : Instr) (rule : Bytes → State → Reply) (s : State) :
    (s.din.length < payloadLen i ∧ runCommand i rule s = .fault .stuckAwaitingPayload) ∨
    (PayloadReady i s ∧ runCommand i rule s =
      .next (replyOf i rule (s.din.take (payloadLen i)) (s.setDin (s.din.drop (payloadLen i)))).finish) := by
  rcases Nat.lt_or_ge s.din.length (payloadLen i) with h | h
  · exact .inl ⟨h, runCommand_short h⟩
  · exact .inr ⟨h, runCommand_ready h⟩

theorem runCommand_next {i : Instr} {rule : Bytes → State → Reply} {s t : State}
    (h : runCommand i rule s = .next t) : PayloadReady i s ∧
      t = (replyOf i rule (s.din.take (payloadLen i)) (s.setDin (s.din.drop (payloadLen i)))).finish := by
  rcases runCommand_cases i rule s with ⟨_, e⟩ | ⟨p, e⟩
  · simp [e] at h
  · rw [e] at h; exact ⟨p, by simpa using h.symm⟩

/-- The reply of the rule itself, when both checks pass. -/
theorem replyOf_rule {i : Instr} {rule : Bytes → State → Reply} {X : Bytes} {s : State}
    (hv : needsInstance i = true → s.valid = true) (hm : needsKeyed i = true → s.mode = .keyed) :
    replyOf i rule X s = rule X s := by
  unfold replyOf
  rw [if_neg, if_neg]
  · intro h; simp only [Bool.and_eq_true, decide_eq_true_eq] at h; simp [hm h.1] at h
  · intro h; simp only [Bool.and_eq_true, Bool.not_eq_true'] at h; simp [hv h.1] at h

theorem replyOf_noInstance {i : Instr} {rule : Bytes → State → Reply} {X : Bytes} {s : State}
    (hi : needsInstance i = true) (hv : s.valid = false) : replyOf i rule X s = raise .errNoInstance s := by
  simp [replyOf, hi, hv]

theorem replyOf_mode {i : Instr} {rule : Bytes → State → Reply} {X : Bytes} {s : State}
    (hi : needsKeyed i = true) (hv : s.valid = true) (hm : s.mode = .hash) :
    replyOf i rule X s = raise .errMode s := by
  simp [replyOf, hi, hv, hm]

/-- The three ways a reply comes about (60 R155). -/
theorem replyOf_cases (i : Instr) (rule : Bytes → State → Reply) (X : Bytes) (s : State) :
    (needsInstance i = true ∧ s.valid = false ∧ replyOf i rule X s = raise .errNoInstance s) ∨
    (needsKeyed i = true ∧ s.mode = .hash ∧ replyOf i rule X s = raise .errMode s) ∨
    ((needsInstance i = true → s.valid = true) ∧ (needsKeyed i = true → s.mode = .keyed) ∧
      replyOf i rule X s = rule X s) := by
  by_cases h1 : needsInstance i = true ∧ s.valid = false
  · exact .inl ⟨h1.1, h1.2, replyOf_noInstance h1.1 h1.2⟩
  · have hv : needsInstance i = true → s.valid = true := fun a => by
      cases e : s.valid
      · exact absurd ⟨a, e⟩ h1
      · rfl
    by_cases h2 : needsKeyed i = true ∧ s.mode = .hash
    · refine .inr (.inl ⟨h2.1, h2.2, replyOf_mode h2.1 (hv ?_) h2.2⟩)
      have := h2.1
      cases i <;> simp_all [needsKeyed, needsInstance]
    · have hm : needsKeyed i = true → s.mode = .keyed := fun a => by
        cases e : s.mode
        · exact absurd ⟨a, e⟩ h2
        · rfl
      exact .inr (.inr ⟨hv, hm, replyOf_rule hv hm⟩)

/-- The rule of each command over the engine's descriptor. -/
def ruleOf : Instr → Bytes → State → Reply
  | .initHash => initHashRule Config.P
  | .initKeyed klen idlen clen => initKeyedRule Config.P klen idlen clen
  | .absorb _ => absorbRule Config.P
  | .encrypt _ => cryptRule Config.P false
  | .decrypt _ => cryptRule Config.P true
  | .squeeze len => squeezeRule Config.P 0x40#8 len
  | .squeezeKey len => squeezeRule Config.P 0x20#8 len
  | .ratchet => ratchetRule Config.P
  | .zeroize => zeroizeRule Config.P

/-- Every command runs its rule through the one order of checks. -/
theorem exec_eq (i : Instr) (s : State) : exec i s = runCommand i (ruleOf i) s := by
  cases i <;> rfl

/-! ### Every operation on `buf` keeps its `W` bytes, the canonical form of the one store (10 R20) -/

theorem bufXor_width {P : Descriptor} {s : State} (w : s.BufWidth P) (i : Nat) (v : Byte) :
    (s.bufXor i v).BufWidth P := by simpa [State.BufWidth, State.bufXor] using w

theorem bufXorFront_width {P : Descriptor} {s : State} (w : s.BufWidth P) (X : Bytes) :
    (s.bufXorFront X).BufWidth P := by simpa [State.BufWidth, State.bufXorFront] using w

theorem permCall_width {P : Descriptor} {s : State} (w : s.BufWidth P) : (permCall P s).BufWidth P := P.f_length _ w

theorem zeroise_width (P : Descriptor) (s : State) : (zeroise P s).BufWidth P := zeros_length P.w

theorem finish_width {P : Descriptor} {r : Reply} (w : r.state.BufWidth P) : r.finish.BufWidth P := w

theorem resetOf_width (P : Descriptor) : (State.resetOf P).BufWidth P := zeros_length P.w

/-- A byte that was not XORed into stays as it was; the one that was holds the XOR (00 R12). -/
theorem bufXor_byte {P : Descriptor} {s : State} (w : s.BufWidth P) (i j : Nat) (v : Byte) (h : j < P.w) :
    (s.bufXor i v).bufByte j = s.bufByte j ^^^ (if j = i then v else 0#8) :=
  modify_getD s.buf i j v (by rw [show s.buf.length = P.w from w]; exact h)

end Sys2Proof.Machine
end

