-- ==== Sys2Proof/Laws/Primitives.lean ====
section
/-! SUPPORT. Everything Down, Up, AbsorbAny, SqueezeAny and Crypt can do (41 R93 to R106): what they leave alone, the
phase they end in, how many permutation calls they make, how many bytes they return, how they take a string apart. -/

namespace Sys2Proof.Machine

/-- `t` comes from `s` by Downs and Ups with `k` permutation calls: only `buf`, `phase` and the `PERM` stream differ
(41 R90), and a `buf` of `W` bytes stays one. -/
structure Duplexed (P : Descriptor) (s t : State) (k : Nat) : Prop where
  frame : t = { s with buf := t.buf, phase := t.phase, perm := t.perm }
  width : s.BufWidth P → t.BufWidth P
  calls : ∃ c, t.perm = s.perm ++ c ∧ c.length = k ∧ (s.BufWidth P → ∀ b ∈ c, b.length = P.w)

namespace Duplexed

variable {P : Descriptor} {s t u : State} {j k : Nat}

theorem refl (s : State) : Duplexed P s s 0 := ⟨rfl, id, [], by simp⟩

theorem trans (h : Duplexed P s t j) (g : Duplexed P t u k) : Duplexed P s u (j + k) where
  frame := by rw [g.frame, h.frame]
  width := fun w => g.width (h.width w)
  calls := by
    obtain ⟨c, hc, hl, hw⟩ := h.calls
    obtain ⟨d, hd, gl, gw⟩ := g.calls
    refine ⟨c ++ d, by rw [hd, hc, List.append_assoc], by simp [hl, gl], fun w b hb => ?_⟩
    rcases List.mem_append.mp hb with m | m
    · exact hw w b m
    · exact gw (h.width w) b m

theorem cast (h : Duplexed P s t j) (e : j = k) : Duplexed P s t k := e ▸ h

theorem mode (h : Duplexed P s t k) : t.mode = s.mode := by rw [h.frame]
theorem absorbRate (h : Duplexed P s t k) : t.absorbRate = s.absorbRate := by rw [h.frame]
theorem squeezeRate (h : Duplexed P s t k) : t.squeezeRate = s.squeezeRate := by rw [h.frame]
theorem valid (h : Duplexed P s t k) : t.valid = s.valid := by rw [h.frame]
theorem scratch (h : Duplexed P s t k) : t.scratch = s.scratch := by rw [h.frame]
theorem cmd (h : Duplexed P s t k) : t.cmd = s.cmd := by rw [h.frame]
theorem din (h : Duplexed P s t k) : t.din = s.din := by rw [h.frame]
theorem dout (h : Duplexed P s t k) : t.dout = s.dout := by rw [h.frame]
theorem rsp (h : Duplexed P s t k) : t.rsp = s.rsp := by rw [h.frame]
theorem freeCount (h : Duplexed P s t k) : t.freeCount = s.freeCount := by rw [h.frame]

theorem perm_length (h : Duplexed P s t k) : t.perm.length = s.perm.length + k := by
  obtain ⟨c, hc, hl, -⟩ := h.calls; simp [hc, hl]

end Duplexed

variable (P : Descriptor)

/-! ### Down and Up -/

theorem down_buf (X : Bytes) (r : Nat) (cd : Byte) (s : State) :
    (down P X r cd s).buf =
      ((xorFront s.buf X).modify X.length (· ^^^ 0x01#8)).modify (cdOffset P s.mode r) (· ^^^ cd) := rfl

@[simp] theorem down_phase (X : Bytes) (r : Nat) (cd : Byte) (s : State) :
    (down P X r cd s).phase = .down := rfl

/-- Down writes `buf` and `phase`, calls no permutation, outputs nothing (41 R93). -/
theorem down_duplexed (X : Bytes) (r : Nat) (cd : Byte) (s : State) : Duplexed P s (down P X r cd s) 0 :=
  ⟨rfl, fun w => by simpa [State.BufWidth, down_buf] using w, [], by simp [down, State.bufXor, State.bufXorFront]⟩

theorem applyCu_buf_length (cu : Byte) (s : State) : (applyCu P cu s).buf.length = s.buf.length := by
  unfold applyCu; split <;> simp [State.bufXor]

/-- `applyCu` writes `buf` only, and only in Keyed mode (41 R95). -/
theorem applyCu_frame (cu : Byte) (s : State) : applyCu P cu s = { s with buf := (applyCu P cu s).buf } := by
  unfold applyCu; split <;> rfl

/-- A zero `cu` changes nothing (41 R96 (c)). -/
theorem modify_zero (b : Bytes) (j : Nat) : b.modify j (· ^^^ 0x00#8) = b := by
  have : (fun x : Byte => x ^^^ 0x00#8) = id := by funext x; simp
  rw [this, List.modify_id]

theorem applyCu_zero (s : State) : applyCu P 0x00#8 s = s := by
  unfold applyCu; split
  · rfl
  · unfold State.bufXor; rw [modify_zero]; rfl

/-- Up calls the permutation once, on `buf` with `cu` XORed in (41 R95). -/
theorem upState_eq (cu : Byte) (s : State) :
    upState P cu s = { s with
      buf := P.f (applyCu P cu s).buf, phase := .up, perm := s.perm ++ [(applyCu P cu s).buf] } := by
  unfold upState permCall
  rw [applyCu_frame P cu s]; rfl

@[simp] theorem upState_phase (cu : Byte) (s : State) : (upState P cu s).phase = .up := rfl

theorem upState_duplexed (cu : Byte) (s : State) : Duplexed P s (upState P cu s) 1 := by
  rw [upState_eq]
  refine ⟨rfl, fun w => P.f_length _ ((applyCu_buf_length P cu s).trans w), [(applyCu P cu s).buf], rfl, rfl, ?_⟩
  intro w b hb
  rw [List.mem_singleton.mp hb]
  exact (applyCu_buf_length P cu s).trans w

/-- In Hash mode `cu` is ignored (41 R96 (a)). -/
theorem upState_hash (cu cu' : Byte) (s : State) (h : s.mode = .hash) : upState P cu s = upState P cu' s := by
  simp [upState, applyCu, h]

theorem up_bytes (n : Nat) (cu : Byte) (s : State) : (up P n cu s).1 = (upState P cu s).buf.take n := by
  simp [up, State.memRead, slice]

@[simp] theorem up_state (n : Nat) (cu : Byte) (s : State) : (up P n cu s).2 = upState P cu s := rfl

/-- Up returns the `n` bytes asked for (41 R95). -/
theorem up_length {n : Nat} (cu : Byte) {s : State} (w : s.BufWidth P) (h : n ≤ P.w) :
    (up P n cu s).1.length = n := by
  rw [up_bytes, List.length_take, (upState_duplexed P cu s).width w]; omega

/-! ### Alternation -/

/-- The phase before a Down is Up (41 R105). -/
@[simp] theorem beforeDown_phase (s : State) : (beforeDown P s).phase = .up := by
  unfold beforeDown; split <;> simp [*]

/-- The phase before an Up is Down (41 R105). -/
@[simp] theorem beforeUp_phase (s : State) : (beforeUp P s).phase = .down := by
  unfold beforeUp; split <;> simp [*]

theorem beforeDown_duplexed (s : State) : Duplexed P s (beforeDown P s) (phaseBit s.phase) := by
  unfold beforeDown; split
  · simpa [phaseBit, *] using Duplexed.refl s
  · simpa [phaseBit, *] using upState_duplexed P _ s

theorem beforeUp_duplexed (s : State) : Duplexed P s (beforeUp P s) 0 := by
  unfold beforeUp; split
  · exact down_duplexed P _ _ _ s
  · exact Duplexed.refl s

/-! ### AbsorbAny -/

variable {P}

/-- A string of one block is one Down, after the alternation step (41 R97). -/
theorem absorbAny_one {X : Bytes} {r : Nat} (h : X.length ≤ r) (cd : Byte) (s : State) :
    absorbAny P X r cd s = down P X r cd (beforeDown P s) := by
  simp [absorbAny, split_of_le h, absorbChunks]

/-- A longer string: its first block with `cd`, then the rest with `0x00` (41 R97). -/
theorem absorbAny_more {X : Bytes} {r : Nat} (hr : 0 < r) (h : r < X.length) (cd : Byte) (s : State) :
    absorbAny P X r cd s = absorbAny P (X.drop r) r 0x00#8 (absorbAny P (X.take r) r cd s) := by
  have : (X.take r).length ≤ r := by simp
  rw [absorbAny_one this]
  simp [absorbAny, split_of_lt hr h, absorbChunks]

/-- AbsorbAny ends in phase Down (41 R97). -/
theorem absorbAny_phase {r : Nat} (hr : 0 < r) (X : Bytes) (cd : Byte) (s : State) :
    (absorbAny P X r cd s).phase = .down := by
  induction X using block_induction hr generalizing cd s with
  | one X h => simp [absorbAny_one h]
  | more X h ih => rw [absorbAny_more hr h]; exact ih _ _

/-- What AbsorbAny leaves alone, and its permutation calls (41 R98). -/
theorem absorbAny_duplexed {r : Nat} (hr : 0 < r) (X : Bytes) (cd : Byte) (s : State) :
    Duplexed P s (absorbAny P X r cd s) (phaseBit s.phase + (numBlocks X.length r - 1)) := by
  induction X using block_induction hr generalizing cd s with
  | one X h =>
    rw [absorbAny_one h, numBlocks_of_le h]
    exact (beforeDown_duplexed P s).trans (down_duplexed P X r cd _)
  | more X h ih =>
    have h1 : (X.take r).length ≤ r := by simp
    rw [absorbAny_more hr h, numBlocks_of_lt hr h]
    have d : Duplexed P s (absorbAny P (X.take r) r cd s) (phaseBit s.phase + 0) := by
      rw [absorbAny_one h1]; exact (beforeDown_duplexed P s).trans (down_duplexed P (X.take r) r cd _)
    refine (d.trans (ih _ _)).cast ?_
    rw [absorbAny_phase hr]
    simp only [phaseBit, List.length_drop]
    have := numBlocks_pos (X.length - r) r
    omega

/-! ### SqueezeAny -/

/-- `squeezeRest` is SqueezeAny on what is missing, when it starts after an Up with enough turns (41 R99). -/
theorem squeezeRest_eq {s : State} (hr : 0 < s.squeezeRate) (hp : s.phase = .up) :
    ∀ turns rem, rem ≤ turns → 0 < rem → squeezeRest P turns rem s = squeezeAny P rem 0x00#8 s := by
  have e : ∀ turns u, squeezeRest P turns 0 u = ([], u) := by intro turns u; cases turns <;> rfl
  intro turns
  induction turns using Nat.strong_induction_on generalizing s with
  | _ turns ih =>
    intro rem hle hpos
    cases turns with
    | zero => omega
    | succ turns =>
      have hb : beforeUp P s = down P [] s.squeezeRate 0x00#8 s := by simp [beforeUp, hp]
      simp only [squeezeRest, squeezeAny, if_neg (Nat.ne_of_gt hpos), up_state, hb]
      generalize hu : upState P 0x00#8 (down P [] s.squeezeRate 0x00#8 s) = u
      have du : Duplexed P s u (0 + 1) :=
        hu ▸ (down_duplexed P [] s.squeezeRate 0x00#8 s).trans (upState_duplexed P 0x00#8 _)
      have hpu : u.phase = .up := by simp [← hu]
      have hru : 0 < u.squeezeRate := by rw [du.squeezeRate]; exact hr
      rcases Nat.eq_zero_or_pos (rem - min s.squeezeRate rem) with z | z
      · rw [z, e, e]
      · rw [ih turns (by omega) hru hpu _ (by omega) z, ih _ (by omega) hru hpu _ le_rfl z]

/-- At most one block: one Up, after the alternation step (41 R99). -/
theorem squeezeAny_one {l : Nat} {s : State} (h : l ≤ s.squeezeRate) (cu : Byte) :
    squeezeAny P l cu s = up P l cu (beforeUp P s) := by
  simp only [squeezeAny, Nat.min_eq_right h, Nat.sub_self, squeezeRest, List.append_nil]

/-- A longer output: its first block with `cu`, then the rest with `0x00` (41 R99). -/
theorem squeezeAny_more {l : Nat} {s : State} (hr : 0 < s.squeezeRate) (h : s.squeezeRate < l) (cu : Byte) :
    squeezeAny P l cu s =
      let Y := squeezeAny P s.squeezeRate cu s
      let Z := squeezeAny P (l - s.squeezeRate) 0x00#8 Y.2
      (Y.1 ++ Z.1, Z.2) := by
  have d : Duplexed P s (upState P cu (beforeUp P s)) (0 + 1) :=
    (beforeUp_duplexed P s).trans (upState_duplexed P cu _)
  simp only [squeezeAny_one (le_refl s.squeezeRate), up_state]
  rw [squeezeAny]
  simp only [Nat.min_eq_left (Nat.le_of_lt h), up_state]
  rw [squeezeRest_eq (by rw [d.squeezeRate]; exact hr) (by simp) _ _ le_rfl (by omega)]

/-- Induction over an output of blocks of `squeeze_rate` bytes. -/
theorem length_induction {r : Nat} (hr : 0 < r) {C : Nat → Prop} (one : ∀ l, l ≤ r → C l)
    (more : ∀ l, r < l → C (l - r) → C l) (l : Nat) : C l := by
  induction l using Nat.strong_induction_on with
  | _ l ih =>
    by_cases h : l ≤ r
    · exact one l h
    · exact more l (by omega) (ih _ (by omega))

/-- SqueezeAny ends in phase Up; what it leaves alone; its permutation calls; the bytes it returns (41 R99, R100). -/
theorem squeezeAny_spec {s : State} (hr : 0 < s.squeezeRate) (l : Nat) (cu : Byte) :
    (squeezeAny P l cu s).2.phase = .up ∧
    Duplexed P s (squeezeAny P l cu s).2 (numBlocks l s.squeezeRate) ∧
    (s.BufWidth P → s.squeezeRate ≤ P.w → (squeezeAny P l cu s).1.length = l) := by
  generalize hR : s.squeezeRate = R at hr
  induction l using length_induction hr generalizing cu s with
  | one l h =>
    rw [squeezeAny_one (by omega), numBlocks_of_le h]
    refine ⟨by simp, ((beforeUp_duplexed P s).trans (upState_duplexed P cu _)).cast (by simp), fun w hw => ?_⟩
    exact up_length P cu ((beforeUp_duplexed P s).width w) (by omega)
  | more l h ih =>
    have d : Duplexed P s (upState P cu (beforeUp P s)) 1 :=
      ((beforeUp_duplexed P s).trans (upState_duplexed P cu _)).cast (by simp)
    rw [squeezeAny_more (by omega) (by omega), squeezeAny_one le_rfl]
    simp only [hR, up_state]
    obtain ⟨p, g, b⟩ := ih (s := upState P cu (beforeUp P s)) 0x00#8 (d.squeezeRate.trans hR)
    refine ⟨p, (d.trans g).cast ?_, fun w hw => ?_⟩
    · rw [numBlocks_of_lt hr h]; omega
    · rw [List.length_append, b (d.width w) hw, up_length P cu ((beforeUp_duplexed P s).width w) hw]; omega

/-- In Hash mode `cu` is ignored (41 R96 (a)). -/
theorem squeezeAny_hash {s : State} (l : Nat) (cu cu' : Byte) (h : s.mode = .hash) :
    squeezeAny P l cu s = squeezeAny P l cu' s := by
  have e : upState P cu (beforeUp P s) = upState P cu' (beforeUp P s) :=
    upState_hash P _ _ _ ((beforeUp_duplexed P s).mode.trans h)
  simp only [squeezeAny, up, e]

/-! ### Crypt -/

theorem cryptStart_duplexed (s : State) : Duplexed P s (cryptStart P s) (phaseBit s.phase) :=
  ((beforeDown_duplexed P s).trans (down_duplexed P _ _ _ _)).cast (by simp)

/-- One chunk of Crypt is one Up and one Down (41 R101, reading (i)). -/
theorem cryptChunk_duplexed (d : Bool) (c : Bytes) (s : State) : Duplexed P s (cryptChunk P d c s).2 1 :=
  ((upState_duplexed P _ s).trans (down_duplexed P _ _ _ _)).cast rfl

@[simp] theorem cryptChunk_phase (d : Bool) (c : Bytes) (s : State) : (cryptChunk P d c s).2.phase = .down := rfl

theorem cryptChunk_length {d : Bool} {c : Bytes} {s : State} (w : s.BufWidth P) (h : c.length ≤ P.w) :
    (cryptChunk P d c s).1.length = c.length := by
  simp [cryptChunk, up_length P _ w h]

/-- Decrypting the output chunk gives the chunk back and the same state (41 R102 (c)). -/
theorem cryptChunk_roundtrip {c : Bytes} {s : State} (w : s.BufWidth P) (h : c.length ≤ P.w) :
    cryptChunk P true (cryptChunk P false c s).1 s = (c, (cryptChunk P false c s).2) := by
  have hk := up_length P 0x00#8 w h
  have e : (up P (xorBytes c (up P c.length 0x00#8 s).1).length 0x00#8 s) = up P c.length 0x00#8 s := by
    rw [xorBytes_length, hk, Nat.min_self]
  simp only [cryptChunk, Bool.false_eq_true, if_false, if_true, e, xorBytes_cancel _ _ (Nat.le_of_eq hk.symm)]

/-- What the chunk loop of Crypt leaves alone, and its permutation calls (41 R102 (a)). -/
theorem cryptChunks_duplexed (d : Bool) (l : List Bytes) (s : State) :
    Duplexed P s (cryptChunks P d l s).2 l.length := by
  induction l generalizing s with
  | nil => exact Duplexed.refl s
  | cons c cs ih => exact ((cryptChunk_duplexed d c s).trans (ih _)).cast (by simp; omega)

theorem cryptChunks_phase (d : Bool) (l : List Bytes) (s : State) (h : l ≠ [] ∨ s.phase = .down) :
    (cryptChunks P d l s).2.phase = .down := by
  induction l generalizing s with
  | nil => simpa [cryptChunks] using h
  | cons c cs ih => exact ih _ (.inr rfl)

theorem cryptChunks_length {d : Bool} {l : List Bytes} {s : State} (w : s.BufWidth P)
    (h : ∀ c ∈ l, c.length ≤ P.w) : (cryptChunks P d l s).1.length = l.flatten.length := by
  induction l generalizing s with
  | nil => rfl
  | cons c cs ih =>
    simp only [cryptChunks, List.length_append, List.flatten_cons]
    rw [cryptChunk_length w (h c (by simp)), ih ((cryptChunk_duplexed d c s).width w) (fun x hx => h x (by simp [hx]))]

/-- A string of one block (41 R101). -/
theorem crypt_one {X : Bytes} (h : X.length ≤ P.rKeyedSqueeze) (d : Bool) (s : State) :
    crypt P X d s = cryptChunk P d X (cryptStart P s) := by
  simp [crypt, split_of_le h, cryptChunks]

/-- A longer string: the first block as a Crypt of its own, then the loop over the rest, with no new separator
(41 R101). -/
theorem crypt_more {X : Bytes} (hr : 0 < P.rKeyedSqueeze) (h : P.rKeyedSqueeze < X.length) (d : Bool) (s : State) :
    crypt P X d s =
      let O := crypt P (X.take P.rKeyedSqueeze) d s
      let Z := cryptChunks P d (split (X.drop P.rKeyedSqueeze) P.rKeyedSqueeze) O.2
      (O.1 ++ Z.1, Z.2) := by
  have h1 : (X.take P.rKeyedSqueeze).length ≤ P.rKeyedSqueeze := by simp
  rw [crypt_one h1]
  simp [crypt, split_of_lt hr h, cryptChunks]

theorem descriptor_rKeyedSqueeze (P : Descriptor) : 0 < P.rKeyedSqueeze ∧ P.rKeyedSqueeze ≤ P.w := by
  have := P.legal; simp only [Dimensions.Legal, Dimensions.RateOk] at this; omega

/-- Crypt ends in phase Down; what it leaves alone; its permutation calls; the bytes it returns (41 R101, R102 (a)). -/
theorem crypt_spec (X : Bytes) (d : Bool) (s : State) :
    (crypt P X d s).2.phase = .down ∧
    Duplexed P s (crypt P X d s).2 (phaseBit s.phase + numBlocks X.length P.rKeyedSqueeze) ∧
    (s.BufWidth P → (crypt P X d s).1.length = X.length) := by
  have hr := descriptor_rKeyedSqueeze P
  refine ⟨cryptChunks_phase d _ _ (.inr rfl), ?_, fun w => ?_⟩
  · exact ((cryptStart_duplexed s).trans (cryptChunks_duplexed d _ _)).cast (by rw [split_length])
  · rw [crypt, cryptChunks_length ((cryptStart_duplexed s).width w), split_flatten hr.1]
    intro c hc; have := split_chunk_le hc; omega

/-! ### In every state -/

/-- AbsorbAny is made of Downs and Ups, whatever the rate. -/
theorem absorbAny_some (X : Bytes) (r : Nat) (cd : Byte) (s : State) :
    ∃ k, Duplexed P s (absorbAny P X r cd s) k := by
  unfold absorbAny
  generalize split X r = l
  induction l generalizing cd s with
  | nil => exact ⟨0, Duplexed.refl s⟩
  | cons c cs ih =>
    obtain ⟨k, d⟩ := ih 0x00#8 (down P c r cd (beforeDown P s))
    exact ⟨_, ((beforeDown_duplexed P s).trans (down_duplexed P c r cd _)).trans d⟩

/-- SqueezeAny is made of Downs and Ups, whatever the rate. -/
theorem squeezeAny_some (l : Nat) (cu : Byte) (s : State) : ∃ k, Duplexed P s (squeezeAny P l cu s).2 k := by
  have rest : ∀ turns rem u, ∃ k, Duplexed P u (squeezeRest P turns rem u).2 k := by
    intro turns
    induction turns with
    | zero => exact fun _ u => ⟨0, Duplexed.refl u⟩
    | succ n ih =>
      intro rem u
      unfold squeezeRest
      split
      · exact ⟨0, Duplexed.refl u⟩
      · obtain ⟨k, d⟩ := ih (rem - min u.squeezeRate rem) (upState P 0x00#8 (down P [] u.squeezeRate 0x00#8 u))
        exact ⟨_, ((down_duplexed P [] u.squeezeRate 0x00#8 u).trans (upState_duplexed P 0x00#8 _)).trans d⟩
  obtain ⟨k, d⟩ := rest (l - min s.squeezeRate l) (l - min s.squeezeRate l) (upState P cu (beforeUp P s))
  exact ⟨_, ((beforeUp_duplexed P s).trans (upState_duplexed P cu _)).trans d⟩

end Sys2Proof.Machine
end

