-- ==== Sys2Proof/Laws/Passive.lean ====
section
/-! SUPPORT. Down and Up read and write `buf`, `phase` and the `PERM` stream only (41 R90), so a change of anything they
do not look at passes through them unchanged. -/

namespace Sys2Proof.Machine

/-- A change of the state that Downs and Ups neither see nor disturb. -/
structure Passive (g : State → State) : Prop where
  buf : ∀ s, (g s).buf = s.buf
  phase : ∀ s, (g s).phase = s.phase
  mode : ∀ s, (g s).mode = s.mode
  squeezeRate : ∀ s, (g s).squeezeRate = s.squeezeRate
  setBuf : ∀ s b, (g s).setBuf b = g (s.setBuf b)
  setPhase : ∀ s p, (g s).setPhase p = g (s.setPhase p)
  permWrite : ∀ s l, (g s).permWrite l = g (s.permWrite l)

theorem passive_setScratch (b : Bytes) : Passive (·.setScratch b) := ⟨fun _ => rfl, fun _ => rfl, fun _ => rfl, fun _ => rfl, fun _ _ => rfl, fun _ _ => rfl, fun _ _ => rfl⟩
theorem passive_setDin (b : Bytes) : Passive (·.setDin b) := ⟨fun _ => rfl, fun _ => rfl, fun _ => rfl, fun _ => rfl, fun _ _ => rfl, fun _ _ => rfl, fun _ _ => rfl⟩
theorem passive_setCmd (c : List HostInput) : Passive (·.setCmd c) := ⟨fun _ => rfl, fun _ => rfl, fun _ => rfl, fun _ => rfl, fun _ _ => rfl, fun _ _ => rfl, fun _ _ => rfl⟩
theorem passive_doutWrite (b : Bytes) : Passive (·.doutWrite b) := ⟨fun _ => rfl, fun _ => rfl, fun _ => rfl, fun _ => rfl, fun _ _ => rfl, fun _ _ => rfl, fun _ _ => rfl⟩
theorem passive_rspWrite (w : Word) : Passive (·.rspWrite w) := ⟨fun _ => rfl, fun _ => rfl, fun _ => rfl, fun _ => rfl, fun _ _ => rfl, fun _ _ => rfl, fun _ _ => rfl⟩

variable {P : Descriptor} {g : State → State}

theorem Passive.down (hg : Passive g) (X : Bytes) (r : Nat) (cd : Byte) (s : State) :
    Machine.down P X r cd (g s) = g (Machine.down P X r cd s) := by
  simp only [Machine.down, State.bufXorFront, State.bufXor, hg.buf, hg.mode, hg.setBuf, hg.setPhase]

theorem Passive.upState (hg : Passive g) (cu : Byte) (s : State) :
    Machine.upState P cu (g s) = g (Machine.upState P cu s) := by
  have h : applyCu P cu (g s) = g (applyCu P cu s) := by
    unfold applyCu
    rw [hg.mode]
    cases s.mode <;> simp only [State.bufXor, hg.buf, hg.setBuf]
  simp only [Machine.upState, permCall, h, hg.buf, hg.permWrite, hg.setBuf, hg.setPhase]

theorem Passive.up (hg : Passive g) (n : Nat) (cu : Byte) (s : State) :
    Machine.up P n cu (g s) = ((Machine.up P n cu s).1, g (Machine.up P n cu s).2) := by
  simp only [Machine.up, hg.upState, State.memRead, hg.buf]

theorem Passive.beforeDown (hg : Passive g) (s : State) :
    Machine.beforeDown P (g s) = g (Machine.beforeDown P s) := by
  simp only [Machine.beforeDown, hg.phase, hg.upState]; cases s.phase <;> rfl

theorem Passive.beforeUp (hg : Passive g) (s : State) :
    Machine.beforeUp P (g s) = g (Machine.beforeUp P s) := by
  simp only [Machine.beforeUp, hg.phase, hg.squeezeRate, hg.down]; cases s.phase <;> rfl

theorem Passive.absorbAny (hg : Passive g) (X : Bytes) (r : Nat) (cd : Byte) (s : State) :
    Machine.absorbAny P X r cd (g s) = g (Machine.absorbAny P X r cd s) := by
  unfold Machine.absorbAny
  generalize split X r = l
  induction l generalizing cd s with
  | nil => rfl
  | cons c cs ih => simp only [absorbChunks, hg.beforeDown, hg.down, ih]

theorem Passive.squeezeRest (hg : Passive g) (turns rem : Nat) (s : State) :
    Machine.squeezeRest P turns rem (g s) =
      ((Machine.squeezeRest P turns rem s).1, g (Machine.squeezeRest P turns rem s).2) := by
  induction turns generalizing rem s with
  | zero => rfl
  | succ turns ih =>
    simp only [Machine.squeezeRest, hg.squeezeRate, hg.down, hg.up, ih]
    split <;> rfl

theorem Passive.squeezeAny (hg : Passive g) (l : Nat) (cu : Byte) (s : State) :
    Machine.squeezeAny P l cu (g s) = ((Machine.squeezeAny P l cu s).1, g (Machine.squeezeAny P l cu s).2) := by
  simp only [Machine.squeezeAny, hg.squeezeRate, hg.beforeUp, hg.up, hg.squeezeRest]

theorem Passive.cryptChunks (hg : Passive g) (d : Bool) (l : List Bytes) (s : State) :
    Machine.cryptChunks P d l (g s) =
      ((Machine.cryptChunks P d l s).1, g (Machine.cryptChunks P d l s).2) := by
  induction l generalizing s with
  | nil => rfl
  | cons c cs ih => simp only [Machine.cryptChunks, cryptChunk, hg.up, hg.down, ih]

theorem Passive.crypt (hg : Passive g) (X : Bytes) (d : Bool) (s : State) :
    Machine.crypt P X d (g s) = ((Machine.crypt P X d s).1, g (Machine.crypt P X d s).2) := by
  simp only [Machine.crypt, cryptStart, hg.beforeDown, hg.down, hg.cryptChunks]

end Sys2Proof.Machine
end

