-- ==== Sys2Proof/Laws/Commands.lean ====
section
/-! SUPPORT. What each command can do: how exec answers, and the invariant of 10 R31 along each rule. -/

namespace Sys2Proof.Machine

/-- When the payload is there and the checks pass, a command answers with its own rule (60 R155 step 6). -/
theorem exec_ok {i : Instr} {s : State} (h : PayloadReady i s) (hv : needsInstance i = true → s.valid = true)
    (hm : needsKeyed i = true → s.mode = .keyed) :
    exec i s = .next (ruleOf i (s.din.take (payloadLen i)) (s.setDin (s.din.drop (payloadLen i)))).finish := by
  rw [exec_eq, runCommand_ready h, replyOf_rule (by simpa using hv) (by simpa using hm)]

/-- Everything `exec` can do, once and for all: wait for payload for ever, refuse to operate without an instance, refuse
a keyed command in Hash mode, or run the rule (60 R155). -/
theorem exec_cases (i : Instr) (s : State) :
    (s.din.length < payloadLen i ∧ exec i s = .fault .stuckAwaitingPayload) ∨
    (PayloadReady i s ∧
      ((needsInstance i = true ∧ s.valid = false ∧
          exec i s = .next (raise .errNoInstance (s.setDin (s.din.drop (payloadLen i)))).finish) ∨
       (needsKeyed i = true ∧ s.mode = .hash ∧
          exec i s = .next (raise .errMode (s.setDin (s.din.drop (payloadLen i)))).finish) ∨
       ((needsInstance i = true → s.valid = true) ∧ (needsKeyed i = true → s.mode = .keyed) ∧
          exec i s =
            .next (ruleOf i (s.din.take (payloadLen i)) (s.setDin (s.din.drop (payloadLen i)))).finish))) := by
  simp only [exec_eq]
  rcases runCommand_cases i (ruleOf i) s with ⟨h, e⟩ | ⟨h, e⟩
  · exact .inl ⟨h, e⟩
  · refine .inr ⟨h, ?_⟩
    rw [e]
    rcases replyOf_cases i (ruleOf i) (s.din.take (payloadLen i)) (s.setDin (s.din.drop (payloadLen i)))
      with ⟨a, b, c⟩ | ⟨a, b, c⟩ | ⟨a, b, c⟩
    · exact .inl ⟨a, b, by rw [c]⟩
    · exact .inr (.inl ⟨a, b, by rw [c]⟩)
    · exact .inr (.inr ⟨a, b, by rw [c]⟩)

theorem needsInstance_iff (i : Instr) : needsInstance i = true ↔ IsOperation i := by
  cases i <;> simp [needsInstance, IsOperation]

theorem needsKeyed_iff (i : Instr) : needsKeyed i = true ↔ IsKeyedOnly i := by
  cases i <;> simp [needsKeyed, IsKeyedOnly]

theorem descriptor_bounds (P : Descriptor) :
    (0 < P.rAbsorb ∧ P.rAbsorb ≤ P.w - 1) ∧ (0 < P.rSqueeze ∧ P.rSqueeze ≤ P.w - 1) ∧
    (0 < P.rKeyedAbsorb ∧ P.rKeyedAbsorb ≤ P.w - 1) ∧ (0 < P.rKeyedSqueeze ∧ P.rKeyedSqueeze ≤ P.w - 1) ∧
    (0 < P.rRatchet ∧ P.rRatchet ≤ P.w - 1) := P.legal

/-- A live instance has rates within the bounds of its descriptor (00 R7, 10 R31). -/
theorem Inv.rate_bounds {P : Descriptor} {s : State} (h : Inv P s) (v : s.valid = true) :
    (0 < s.absorbRate ∧ s.absorbRate ≤ P.w - 1) ∧ (0 < s.squeezeRate ∧ s.squeezeRate ≤ P.w - 1) := by
  have e := h.rates v
  have b := descriptor_bounds P
  cases m : s.mode <;> simp only [m, ratesOf, Prod.mk.injEq] at e <;> rw [e.1, e.2]
  · exact ⟨b.1, b.2.1⟩
  · exact ⟨b.2.2.1, b.2.2.2.1⟩

/-- In Keyed mode the registers hold the keyed rates (10 R24). -/
theorem Inv.keyed_rates {P : Descriptor} {s : State} (h : Inv P s) (v : s.valid = true) (m : s.mode = .keyed) :
    s.absorbRate = P.rKeyedAbsorb ∧ s.squeezeRate = P.rKeyedSqueeze := by
  simpa [m, ratesOf] using h.rates v

/-- The invariant is about the seven elements only. -/
theorem Inv.of_same {P : Descriptor} {s t : State} (h : Inv P s) (e : SameEngine s t) : Inv P t := by
  obtain ⟨e1, e2, e3, e4, e5, e6, e7⟩ := e
  refine ⟨?_, e7 ▸ h.scratch, fun v => ?_, fun v => ?_⟩
  · have := h.width; rwa [State.BufWidth, e1] at this
  · have := h.noInstance (e6 ▸ v); rwa [Zeroised, e1, e2, e3, e4, e5, e6, e7] at this
  · have := h.rates (e6 ▸ v); rwa [e3, e4, e5] at this

theorem SameEngine.refl (s : State) : SameEngine s s := ⟨rfl, rfl, rfl, rfl, rfl, rfl, rfl⟩

/-- Downs and Ups on a live instance keep the invariant. -/
theorem Duplexed.inv {P : Descriptor} {s t : State} {k : Nat} (d : Duplexed P s t k) (h : Inv P s)
    (v : s.valid = true) : Inv P t where
  width := d.width h.width
  scratch := d.scratch.trans h.scratch
  noInstance := fun e => by rw [d.valid, v] at e; cases e
  rates := fun _ => by rw [d.absorbRate, d.squeezeRate, d.mode]; exact h.rates v

/-- The end of a command touches only the output streams. -/
theorem finish_same (r : Reply) : SameEngine r.state r.finish := ⟨rfl, rfl, rfl, rfl, rfl, rfl, rfl⟩

/-- A rule made of Downs and Ups that ends with `OK`: everything the command changes (10 R21, R22; 30 R65, R66). -/
theorem Duplexed.finish_done {P : Descriptor} {s t : State} {k : Nat} (d : Duplexed P s t k) (Y : Bytes) :
    (done Y t).finish = { s with
      buf := t.buf, phase := t.phase, perm := t.perm, dout := s.dout ++ Y,
      rsp := s.rsp ++ [responseWord .ok t] } := by
  rw [finish_eq, done]
  simp only [d.dout, d.rsp, d.mode, d.absorbRate, d.squeezeRate, d.valid, d.scratch, d.cmd, d.din, d.freeCount]

/-- The four responses of a live engine (95 part 3.1). -/
theorem responseWord_ok {s : State} (v : s.valid = true) :
    responseWord .ok s =
      match s.mode, s.phase with
      | .hash, .up => 0x00000100#32
      | .hash, .down => 0x00000500#32
      | .keyed, .up => 0x00000300#32
      | .keyed, .down => 0x00000700#32 := by
  cases m : s.mode <;> cases p : s.phase <;> simp [responseWord, statusCode, validBit, modeBit, phaseBit, v, m, p]

/-- RATCHET's rule is a squeeze of `r_ratchet` bytes, absorbed back; `scratch` is zero before the response (44 R133). -/
theorem ratchet_eq (P : Descriptor) (s : State) :
    ratchetAbsorb P (ratchetSqueeze P s) =
      (absorbAny P (squeezeAny P P.rRatchet 0x10#8 s).1 P.rKeyedAbsorb 0x00#8
        (squeezeAny P P.rRatchet 0x10#8 s).2).setScratch (zeros P.rRatchet) := by
  simp only [ratchetAbsorb, ratchetSqueeze, State.setScratch_scratch, (passive_setScratch _).absorbAny]
  rfl

/-- What that squeeze and absorb do on a live Keyed engine: phase Down, and the permutation calls (44 R134 (c)). -/
theorem ratchet_duplexed {P : Descriptor} {s : State} (w : s.BufWidth P) (hr : 0 < s.squeezeRate)
    (hw : s.squeezeRate ≤ P.w) :
    let t := absorbAny P (squeezeAny P P.rRatchet 0x10#8 s).1 P.rKeyedAbsorb 0x00#8
      (squeezeAny P P.rRatchet 0x10#8 s).2
    t.phase = .down ∧ Duplexed P s t
      (numBlocks P.rRatchet s.squeezeRate + (numBlocks P.rRatchet P.rKeyedAbsorb - 1)) := by
  have ha := (descriptor_bounds P).2.2.1.1
  obtain ⟨p, d, l⟩ := squeezeAny_spec (P := P) hr P.rRatchet 0x10#8
  have a := absorbAny_duplexed (P := P) ha (squeezeAny P P.rRatchet 0x10#8 s).1 0x00#8
    (squeezeAny P P.rRatchet 0x10#8 s).2
  rw [p, l w hw] at a
  exact ⟨absorbAny_phase ha _ _ _, (d.trans a).cast (by simp [phaseBit])⟩

/-- The phase each operation ends in (10 R30). -/
def phaseAfter : Instr → Phase
  | .initHash => .up
  | .initKeyed _ _ _ => .down
  | .absorb _ => .down
  | .encrypt _ => .down
  | .decrypt _ => .down
  | .squeeze _ => .up
  | .squeezeKey _ => .up
  | .ratchet => .down
  | .zeroize => .up

/-- Everything the rule of an operation command does on a live instance: it ends with `OK`, returns `OutLen` bytes, makes
its number of permutation calls, ends in its phase, and touches nothing but `buf`, `phase` and the `PERM` stream. -/
theorem operation_rule {i : Instr} {X : Bytes} {s : State} (h : Inv Config.P s) (v : s.valid = true)
    (o : needsInstance i = true) (m : needsKeyed i = true → s.mode = .keyed) (l : X.length = payloadLen i) :
    ∃ Y t, ruleOf i X s = done Y t ∧ Duplexed Config.P s t (callsOf Config.P s i) ∧ Y.length = outLen i ∧
      t.phase = phaseAfter i := by
  have b := h.rate_bounds v
  cases i with
  | initHash => simp [needsInstance] at o
  | initKeyed _ _ _ => simp [needsInstance] at o
  | zeroize => simp [needsInstance] at o
  | absorb n =>
    have l' : X.length = n := l
    refine ⟨_, _, rfl, (absorbAny_duplexed b.1.1 X _ s).cast ?_, rfl, absorbAny_phase b.1.1 X _ s⟩
    simp only [callsOf, l']
    have := numBlocks_pos n s.absorbRate; omega
  | squeeze n =>
    obtain ⟨p, d, k⟩ := squeezeAny_spec (P := Config.P) b.2.1 n 0x40#8
    exact ⟨_, _, rfl, d, k h.width (by omega), p⟩
  | squeezeKey n =>
    obtain ⟨p, d, k⟩ := squeezeAny_spec (P := Config.P) b.2.1 n 0x20#8
    exact ⟨_, _, rfl, d, k h.width (by omega), p⟩
  | encrypt n =>
    obtain ⟨p, d, k⟩ := crypt_spec (P := Config.P) X false s
    exact ⟨_, _, rfl, d.cast (by simp only [callsOf]; rw [l]; rfl), (k h.width).trans l, p⟩
  | decrypt n =>
    obtain ⟨p, d, k⟩ := crypt_spec (P := Config.P) X true s
    exact ⟨_, _, rfl, d.cast (by simp only [callsOf]; rw [l]; rfl), (k h.width).trans l, p⟩
  | ratchet =>
    obtain ⟨p, d⟩ := ratchet_duplexed h.width b.2.1 (by omega)
    refine ⟨[], _, rfl, ?_, rfl, ?_⟩
    · rw [ratchet_eq, ← h.scratch, ← d.scratch]
      refine Duplexed.cast d ?_
      simp only [callsOf]
      have := numBlocks_pos Config.P.rRatchet Config.P.rKeyedAbsorb; omega
    · rw [ratchet_eq]; exact p

theorem numBlocks_one {n : Nat} (h : 0 < n) : numBlocks n 1 = n := by simp [numBlocks]; omega

/-- Everything the absorbs of the keyed constructor do: one permutation call for each counter byte (42 R113). -/
theorem absorbKey_duplexed {P : Descriptor} {k d c : Nat} {D : Bytes} {s : State} (l : D.length = k + d + c)
    (h : k + d + 1 ≤ P.rKeyedAbsorb) (u : s.phase = .up) :
    Duplexed P s (absorbKey P k d c D s) c ∧ (absorbKey P k d c D s).phase = .down := by
  have ha := (descriptor_bounds P).2.2.1.1
  have kl : (keyBlock k d D).length ≤ P.rKeyedAbsorb := by simp [keyBlock, slice_length]; omega
  have a := absorbAny_duplexed (P := P) ha (keyBlock k d D) 0x02#8 s
  have p := absorbAny_phase (P := P) ha (keyBlock k d D) 0x02#8 s
  rw [numBlocks_of_le kl, u] at a
  simp only [absorbKey]
  split
  · rename_i hc
    have cl : (counterOf k d c D).length = c := by simp [counterOf, slice_length]; omega
    have g := absorbAny_duplexed (P := P) Nat.one_pos (counterOf k d c D) 0x00#8
      (absorbAny P (keyBlock k d D) P.rKeyedAbsorb 0x02#8 s)
    rw [cl, p, numBlocks_one hc] at g
    exact ⟨(a.trans g).cast (by simp only [phaseBit]; omega), absorbAny_phase Nat.one_pos _ _ _⟩
  · exact ⟨a.cast (by simp only [phaseBit]; omega), p⟩

/-- What a rule, run in any state, leaves alone: the input streams and the words and bytes already delivered. -/
structure Onward (s t : State) : Prop where
  cmd : t.cmd = s.cmd
  din : t.din = s.din
  dout : t.dout = s.dout
  rsp : t.rsp = s.rsp
  perm : ∃ c, t.perm = s.perm ++ c
  freeCount : t.freeCount = s.freeCount

theorem Duplexed.onward {P : Descriptor} {s t : State} {k : Nat} (d : Duplexed P s t k) : Onward s t :=
  ⟨d.cmd, d.din, d.dout, d.rsp, let ⟨c, h, _⟩ := d.calls; ⟨c, h⟩, d.freeCount⟩

theorem Onward.trans {s t u : State} (h : Onward s t) (g : Onward t u) : Onward s u :=
  ⟨g.cmd.trans h.cmd, g.din.trans h.din, g.dout.trans h.dout, g.rsp.trans h.rsp,
    (let ⟨c, hc⟩ := h.perm; let ⟨d, hd⟩ := g.perm; ⟨c ++ d, by rw [hd, hc, List.append_assoc]⟩),
    g.freeCount.trans h.freeCount⟩

theorem zeroise_onward (P : Descriptor) (s : State) : Onward s (zeroise P s) :=
  ⟨rfl, rfl, rfl, rfl, ⟨[], (List.append_nil _).symm⟩, rfl⟩

theorem construct_onward (P : Descriptor) (m : Mode) (a r : Nat) (s : State) :
    Onward s (construct m a r (zeroise P s)) :=
  ⟨rfl, rfl, rfl, rfl, ⟨[], (List.append_nil _).symm⟩, rfl⟩

/-- The status each rule ends with, in any state (30 R66, 60 R151), and that it adds to the output streams only what its
reply says. -/
theorem ruleOf_status (i : Instr) (X : Bytes) (s : State) :
    Onward s (ruleOf i X s).state ∧
    ((KeyTooLong Config.P i ∧ ruleOf i X s = raise .errInvalidKey (zeroise Config.P s)) ∨
      (¬ KeyTooLong Config.P i ∧ (ruleOf i X s).status = .ok)) := by
  have sq := fun (n : Nat) (cu : Byte) => squeezeAny_some (P := Config.P) n cu s
  have cr := fun (d : Bool) => (crypt_spec (P := Config.P) X d s).2.1.onward
  cases i with
  | initHash => exact ⟨construct_onward _ _ _ _ _, .inr ⟨by simp [KeyTooLong], rfl⟩⟩
  | zeroize => exact ⟨zeroise_onward _ _, .inr ⟨by simp [KeyTooLong], rfl⟩⟩
  | absorb n =>
    obtain ⟨k, d⟩ := absorbAny_some (P := Config.P) X s.absorbRate 0x03#8 s
    exact ⟨d.onward, .inr ⟨by simp [KeyTooLong], rfl⟩⟩
  | squeeze n => obtain ⟨k, d⟩ := sq n 0x40#8; exact ⟨d.onward, .inr ⟨by simp [KeyTooLong], rfl⟩⟩
  | squeezeKey n => obtain ⟨k, d⟩ := sq n 0x20#8; exact ⟨d.onward, .inr ⟨by simp [KeyTooLong], rfl⟩⟩
  | encrypt n => exact ⟨cr false, .inr ⟨by simp [KeyTooLong], rfl⟩⟩
  | decrypt n => exact ⟨cr true, .inr ⟨by simp [KeyTooLong], rfl⟩⟩
  | ratchet =>
    obtain ⟨k, d⟩ := sq Config.P.rRatchet 0x10#8
    obtain ⟨j, a⟩ := absorbAny_some (P := Config.P) (squeezeAny Config.P Config.P.rRatchet 0x10#8 s).1
      Config.P.rKeyedAbsorb 0x00#8 (squeezeAny Config.P Config.P.rRatchet 0x10#8 s).2
    have o := (d.trans a).onward
    refine ⟨?_, .inr ⟨by simp [KeyTooLong], rfl⟩⟩
    show Onward s (ratchetAbsorb Config.P (ratchetSqueeze Config.P s))
    rw [ratchet_eq]
    exact ⟨o.cmd, o.din, o.dout, o.rsp, o.perm, o.freeCount⟩
  | initKeyed k d c =>
    by_cases h : k + d + 1 > Config.P.rKeyedAbsorb
    · have e : ruleOf (.initKeyed k d c) X s = raise .errInvalidKey (zeroise Config.P s) := by
        simp [ruleOf, initKeyedRule, h]
      rw [e]
      exact ⟨zeroise_onward _ _, .inl ⟨⟨k, d, c, rfl, h⟩, rfl⟩⟩
    · have e : ruleOf (.initKeyed k d c) X s = done [] (absorbKey Config.P k d c X
          (construct .keyed Config.P.rKeyedAbsorb Config.P.rKeyedSqueeze (zeroise Config.P s))) := by
        simp [ruleOf, initKeyedRule, h]
      rw [e]
      obtain ⟨j, a⟩ := absorbAny_some (P := Config.P) (keyBlock k d X) Config.P.rKeyedAbsorb 0x02#8
        (construct .keyed Config.P.rKeyedAbsorb Config.P.rKeyedSqueeze (zeroise Config.P s))
      obtain ⟨j', a'⟩ := absorbAny_some (P := Config.P) (counterOf k d c X) 1 0x00#8
        (absorbAny Config.P (keyBlock k d X) Config.P.rKeyedAbsorb 0x02#8
          (construct .keyed Config.P.rKeyedAbsorb Config.P.rKeyedSqueeze (zeroise Config.P s)))
      have o := construct_onward Config.P .keyed Config.P.rKeyedAbsorb Config.P.rKeyedSqueeze s
      refine ⟨?_, .inr ⟨?_, rfl⟩⟩
      · show Onward s (absorbKey _ _ _ _ _ _)
        unfold absorbKey
        split
        · exact o.trans (a.trans a').onward
        · exact o.trans a.onward
      · rintro ⟨k', d', c', e', h'⟩
        cases e'; exact h h'

theorem Onward.refl (s : State) : Onward s s := ⟨rfl, rfl, rfl, rfl, ⟨[], (List.append_nil _).symm⟩, rfl⟩

/-- Everything that follows from a next state of `exec`, from any state: the payload was there, the command ended with one
reply, and that reply is the first failing check's or the rule's (60 R155). -/
theorem exec_next {i : Instr} {s t : State} (h : exec i s = .next t) :
    PayloadReady i s ∧ ∃ r : Reply, t = r.finish ∧ Onward (s.setDin (s.din.drop (payloadLen i))) r.state ∧
      ((IsOperation i ∧ s.valid = false ∧ r = raise .errNoInstance (s.setDin (s.din.drop (payloadLen i)))) ∨
       (IsKeyedOnly i ∧ s.valid = true ∧ s.mode = .hash ∧
          r = raise .errMode (s.setDin (s.din.drop (payloadLen i)))) ∨
       (KeyTooLong Config.P i ∧
          r = raise .errInvalidKey (zeroise Config.P (s.setDin (s.din.drop (payloadLen i))))) ∨
       ((IsOperation i → s.valid = true) ∧ (IsKeyedOnly i → s.mode = .keyed) ∧ ¬ KeyTooLong Config.P i ∧
          r.status = .ok ∧
          r = ruleOf i (s.din.take (payloadLen i)) (s.setDin (s.din.drop (payloadLen i))))) := by
  rw [exec_eq] at h
  obtain ⟨p, e⟩ := runCommand_next h
  refine ⟨p, _, e, ?_⟩
  generalize s.din.take (payloadLen i) = X at *
  generalize hu : s.setDin (s.din.drop (payloadLen i)) = u at *
  have uv : u.valid = s.valid := by rw [← hu]; rfl
  have um : u.mode = s.mode := by rw [← hu]; rfl
  simp only [← uv, ← um, ← needsInstance_iff, ← needsKeyed_iff]
  by_cases hv : needsInstance i = true ∧ u.valid = false
  · rw [replyOf_noInstance hv.1 hv.2]
    exact ⟨Onward.refl _, .inl ⟨hv.1, hv.2, rfl⟩⟩
  · have v : needsInstance i = true → u.valid = true := fun a => by
      cases c : u.valid
      · exact absurd ⟨a, c⟩ hv
      · rfl
    by_cases hm : needsKeyed i = true ∧ u.mode = .hash
    · have vv : u.valid = true := v (by have := hm.1; revert this; cases i <;> simp [needsKeyed, needsInstance])
      rw [replyOf_mode hm.1 vv hm.2]
      exact ⟨Onward.refl _, .inr (.inl ⟨hm.1, vv, hm.2, rfl⟩)⟩
    · have m : needsKeyed i = true → u.mode = .keyed := fun a => by
        cases c : u.mode
        · exact absurd ⟨a, c⟩ hm
        · rfl
      rw [replyOf_rule v m]
      obtain ⟨o, c⟩ := ruleOf_status i X u
      refine ⟨o, ?_⟩
      rcases c with ⟨a, b⟩ | ⟨a, b⟩
      · exact .inr (.inr (.inl ⟨a, b⟩))
      · exact .inr (.inr (.inr ⟨v, m, a, b, rfl⟩))

end Sys2Proof.Machine
end

