-- ==== Sys2Proof/Laws/Decode.lean ====
section
/-! SUPPORT. The fields of a command word as numbers, and of the words the encoder makes. -/

namespace Sys2Proof

theorem opcOf_eq (c : Word) : opcOf c = c.toNat / 2 ^ 28 := by
  have := c.isLt
  rw [opcOf, BitVec.extractLsb'_toNat, Nat.shiftRight_eq_div_pow, Nat.mod_eq_of_lt (by omega)]

theorem rsvOf_eq (c : Word) : rsvOf c = c.toNat / 2 ^ 24 % 16 := by
  rw [rsvOf, BitVec.extractLsb'_toNat, Nat.shiftRight_eq_div_pow]

theorem argOf_eq (c : Word) : argOf c = c.toNat % 2 ^ 24 := by
  rw [argOf, BitVec.extractLsb'_toNat, Nat.shiftRight_zero]

theorem klenOf_eq (c : Word) : klenOf c = argOf c % 256 := by
  rw [klenOf, argOf_eq, BitVec.extractLsb'_toNat, Nat.shiftRight_zero]; omega

theorem idlenOf_eq (c : Word) : idlenOf c = argOf c / 256 % 256 := by
  rw [idlenOf, argOf_eq, BitVec.extractLsb'_toNat, Nat.shiftRight_eq_div_pow]; omega

theorem clenOf_eq (c : Word) : clenOf c = argOf c / 65536 := by
  rw [clenOf, argOf_eq, BitVec.extractLsb'_toNat, Nat.shiftRight_eq_div_pow]; omega

theorem argOf_lt (c : Word) : argOf c < 2 ^ 24 := by rw [argOf_eq]; omega

theorem commandWord_toNat {opc arg : Nat} (ho : opc < 16) (ha : arg < 2 ^ 24) :
    (commandWord opc arg).toNat = opc * 2 ^ 28 + arg := by
  rw [commandWord, BitVec.toNat_ofNat, Nat.mod_eq_of_lt (by omega)]

theorem commandWord_opc {opc arg : Nat} (ho : opc < 16) (ha : arg < 2 ^ 24) :
    opcOf (commandWord opc arg) = opc := by rw [opcOf_eq, commandWord_toNat ho ha]; omega

theorem commandWord_rsv {opc arg : Nat} (ho : opc < 16) (ha : arg < 2 ^ 24) :
    rsvOf (commandWord opc arg) = 0 := by rw [rsvOf_eq, commandWord_toNat ho ha]; omega

theorem commandWord_arg {opc arg : Nat} (ho : opc < 16) (ha : arg < 2 ^ 24) :
    argOf (commandWord opc arg) = arg := by rw [argOf_eq, commandWord_toNat ho ha]; omega

/-- A word with `RSV = 0` is made of its `OPC` and `ARG` (R61). -/
theorem eq_commandWord {c : Word} (h : rsvOf c = 0) : c = commandWord (opcOf c) (argOf c) := by
  have := c.isLt
  have ho : opcOf c < 16 := by rw [opcOf_eq]; omega
  apply BitVec.eq_of_toNat_eq
  rw [commandWord_toNat ho (argOf_lt c), opcOf_eq, argOf_eq]
  rw [rsvOf_eq] at h
  omega

theorem keyedArg_lt {k d n : Nat} (hk : k ≤ 255) (hd : d ≤ 255) (hn : n ≤ 255) : keyedArg k d n < 2 ^ 24 := by
  rw [keyedArg]; omega

end Sys2Proof
end

