-- ==== Sys2Proof/Laws/Engine.lean ====
section
/-! SUPPORT. Two engines that agree in the seven elements of 10 R20 stay in agreement under every primitive and return
the same bytes: nothing depends on what the ports hold. -/

namespace Sys2Proof.Machine

variable {P : Descriptor} {s t : State}

namespace SameEngine

theorem applyCu (h : SameEngine s t) (cu : Byte) : SameEngine (Machine.applyCu P cu s) (Machine.applyCu P cu t) := by
  obtain ⟨h1, h2, h3, h4, h5, h6, h7⟩ := h
  unfold Machine.applyCu
  rw [h3]
  split
  · exact ⟨h1, h2, h3, h4, h5, h6, h7⟩
  · exact ⟨by simp [State.bufXor, h1], h2, h3, h4, h5, h6, h7⟩

theorem upState (h : SameEngine s t) (cu : Byte) : SameEngine (Machine.upState P cu s) (Machine.upState P cu t) := by
  have g := h.applyCu (P := P) cu
  obtain ⟨h1, h2, h3, h4, h5, h6, h7⟩ := h
  rw [upState_eq, upState_eq, g.1]
  exact ⟨rfl, rfl, h3, h4, h5, h6, h7⟩

theorem up (h : SameEngine s t) (n : Nat) (cu : Byte) : (Machine.up P n cu s).1 = (Machine.up P n cu t).1 := by
  rw [up_bytes, up_bytes, (h.upState cu).1]

theorem down (h : SameEngine s t) (X : Bytes) (r : Nat) (cd : Byte) :
    SameEngine (Machine.down P X r cd s) (Machine.down P X r cd t) := by
  obtain ⟨h1, h2, h3, h4, h5, h6, h7⟩ := h
  exact ⟨by simp [down_buf, h1, h3], rfl, h3, h4, h5, h6, h7⟩

theorem beforeDown (h : SameEngine s t) : SameEngine (Machine.beforeDown P s) (Machine.beforeDown P t) := by
  unfold Machine.beforeDown
  rw [h.2.1]
  split
  · exact h
  · exact h.upState _

theorem beforeUp (h : SameEngine s t) : SameEngine (Machine.beforeUp P s) (Machine.beforeUp P t) := by
  unfold Machine.beforeUp
  rw [h.2.1, h.2.2.2.2.1]
  split
  · exact h.down _ _ _
  · exact h

theorem absorbAny (h : SameEngine s t) (X : Bytes) (r : Nat) (cd : Byte) :
    SameEngine (Machine.absorbAny P X r cd s) (Machine.absorbAny P X r cd t) := by
  unfold Machine.absorbAny
  generalize split X r = l
  induction l generalizing cd s t with
  | nil => exact h
  | cons c cs ih => exact ih (h.beforeDown.down _ _ _) _

theorem squeezeRest (h : SameEngine s t) (turns rem : Nat) :
    (Machine.squeezeRest P turns rem s).1 = (Machine.squeezeRest P turns rem t).1 ∧
      SameEngine (Machine.squeezeRest P turns rem s).2 (Machine.squeezeRest P turns rem t).2 := by
  induction turns generalizing rem s t with
  | zero => exact ⟨rfl, h⟩
  | succ n ih =>
    unfold Machine.squeezeRest
    rw [h.2.2.2.2.1]
    split
    · exact ⟨rfl, h⟩
    · have d := h.down (P := P) [] t.squeezeRate 0x00#8
      have z := ih (d.upState (P := P) 0x00#8) (rem - min t.squeezeRate rem)
      exact ⟨by simp only [up_state, d.up, z.1], z.2⟩

theorem squeezeAny (h : SameEngine s t) (l : Nat) (cu : Byte) :
    (Machine.squeezeAny P l cu s).1 = (Machine.squeezeAny P l cu t).1 ∧
      SameEngine (Machine.squeezeAny P l cu s).2 (Machine.squeezeAny P l cu t).2 := by
  have b := h.beforeUp (P := P)
  have z := (b.upState (P := P) cu).squeezeRest (P := P) (l - min t.squeezeRate l) (l - min t.squeezeRate l)
  simp only [Machine.squeezeAny, up_state, h.2.2.2.2.1, b.up]
  exact ⟨by rw [z.1], z.2⟩

theorem cryptChunks (h : SameEngine s t) (d : Bool) (l : List Bytes) :
    (Machine.cryptChunks P d l s).1 = (Machine.cryptChunks P d l t).1 ∧
      SameEngine (Machine.cryptChunks P d l s).2 (Machine.cryptChunks P d l t).2 := by
  induction l generalizing s t with
  | nil => exact ⟨rfl, h⟩
  | cons c cs ih =>
    have u := h.upState (P := P) 0x00#8
    simp only [Machine.cryptChunks, cryptChunk, up_state, h.up]
    have z := ih (u.down (P := P) (if d = true then xorBytes c (Machine.up P c.length 0x00#8 t).1 else c)
      P.rKeyedSqueeze 0x00#8)
    exact ⟨by rw [z.1], z.2⟩

theorem crypt (h : SameEngine s t) (X : Bytes) (d : Bool) :
    (Machine.crypt P X d s).1 = (Machine.crypt P X d t).1 ∧
      SameEngine (Machine.crypt P X d s).2 (Machine.crypt P X d t).2 :=
  (h.beforeDown.down [] P.rKeyedSqueeze 0x80#8).cryptChunks d _

end SameEngine

/-- The rules see the seven elements and the payload only. -/
theorem ruleOf_same (h : SameEngine s t) (i : Instr) (X : Bytes) :
    (ruleOf i X s).status = (ruleOf i X t).status ∧ (ruleOf i X s).out = (ruleOf i X t).out ∧
      SameEngine (ruleOf i X s).state (ruleOf i X t).state := by
  have z : ∀ m a r, SameEngine (construct m a r (zeroise Config.P s)) (construct m a r (zeroise Config.P t)) :=
    fun _ _ _ => ⟨rfl, rfl, rfl, rfl, rfl, rfl, rfl⟩
  cases i with
  | initHash => exact ⟨rfl, rfl, z _ _ _⟩
  | initKeyed k d c =>
    by_cases e : k + d + 1 > Config.P.rKeyedAbsorb
    · simp only [ruleOf, initKeyedRule, e, if_true]
      exact ⟨rfl, rfl, ⟨rfl, rfl, rfl, rfl, rfl, rfl, rfl⟩⟩
    · simp only [ruleOf, initKeyedRule, e, if_false, done, absorbKey, true_and]
      split
      · exact ((z _ _ _).absorbAny _ _ _).absorbAny _ _ _
      · exact (z _ _ _).absorbAny _ _ _
  | absorb n =>
    simp only [ruleOf, absorbRule, done, h.2.2.2.1, true_and]
    exact h.absorbAny _ _ _
  | encrypt n => exact ⟨rfl, (h.crypt X false).1, (h.crypt X false).2⟩
  | decrypt n => exact ⟨rfl, (h.crypt X true).1, (h.crypt X true).2⟩
  | squeeze n => exact ⟨rfl, (h.squeezeAny n _).1, (h.squeezeAny n _).2⟩
  | squeezeKey n => exact ⟨rfl, (h.squeezeAny n _).1, (h.squeezeAny n _).2⟩
  | ratchet =>
    refine ⟨rfl, rfl, ?_⟩
    obtain ⟨q, g⟩ := h.squeezeAny (P := Config.P) Config.P.rRatchet 0x10#8
    show SameEngine (ratchetAbsorb _ (ratchetSqueeze _ s)) (ratchetAbsorb _ (ratchetSqueeze _ t))
    rw [ratchet_eq, ratchet_eq, q]
    obtain ⟨h1, h2, h3, h4, h5, h6, h7⟩ := g.absorbAny (P := Config.P)
      (Machine.squeezeAny Config.P Config.P.rRatchet 0x10#8 t).1 Config.P.rKeyedAbsorb 0x00#8
    exact ⟨h1, h2, h3, h4, h5, h6, rfl⟩
  | zeroize => exact ⟨rfl, rfl, ⟨rfl, rfl, rfl, rfl, rfl, rfl, rfl⟩⟩

end Sys2Proof.Machine
end

