-- ==== Sys2Proof/Laws/Facade.lean ====
section
/-! SUPPORT. Scripts of the façades, one transaction at a time: a step runs the first command on its own payload. -/

namespace Sys2Proof.Machine

/-- Whatever the comparison gave, `open` and the end of its use issue one `ZEROIZE` between them (45 R145 (c)). -/
theorem afterOpen_endUse (r : OpenResult) : afterOpen r ++ endUse r = drop := by cases r <;> rfl

/-- The host's copy keeps its length, whatever the comparison gave (45 R144). -/
@[simp] theorem copyAfterOpen_length (held : Bytes) (r : OpenResult) : (copyAfterOpen held r).length = held.length := by
  cases r
  · rfl
  · exact zeros_length _

/-- A use for `open` is a keyed use like any other (45 R145 (c)). -/
theorem openUse_eq (key nonce ad ct : Bytes) (tagLen : Nat) (r : OpenResult) :
    openUse key nonce ad ct tagLen r = keyedUse key [] [] (aeadOpen nonce ad ct tagLen) := by
  rw [openUse, List.append_assoc, afterOpen_endUse]; rfl

/-- The step over a presented script is its first command, its payload in front of the payloads of the others. -/
theorem step_presentScript (tx : Transaction) (l : List Transaction) (s : State)
    (d : decode (encode tx.instr) = .instr tx.instr) :
    step (presentScript (tx :: l) s) =
      exec tx.instr ((presentScript l s).setDin (tx.payload ++ (presentScript l s).din)) := by
  simp [step, hostStep, presentScript, processInput, processCommand, d, State.setCmd, State.setDin]

/-- A run over a presented script goes on with the script that is left, from the state its first command answered. -/
theorem run_presentScript (k : Nat) (tx : Transaction) (l : List Transaction) (s t : State)
    (d : decode (encode tx.instr) = .instr tx.instr)
    (h : exec tx.instr ((presentScript l s).setDin (tx.payload ++ (presentScript l s).din)) = .next t) :
    Sys2Proof.core.run (k + 1) (presentScript (tx :: l) s) = Sys2Proof.core.run k t := by
  have e : Sys2Proof.core.step (presentScript (tx :: l) s) = .next t := (step_presentScript tx l s d).trans h
  simp only [Host.Core.run, e]

end Sys2Proof.Machine
end

