-- ==== Sys2Proof/Laws/PerInstr.lean ====
section
/-! SUPPORT. Statements for all commands, one lemma per constructor: the reserved bits `RSV` of every well-formed command's
word are zero (30 R61), as the assembler must leave them (30 R71). -/

/-- `RSV = 0000` in the word of a well-formed command (30 R61). -/
def Sys2Proof.Laws.ReservedZero.Statement (i : Sys2Proof.Instr) : Prop :=
  i.wf = true → Sys2Proof.rsvOf (Sys2Proof.encode i) = 0

namespace Sys2Proof.Laws.ReservedZero

theorem initHash : Statement .initHash := fun _ =>
  commandWord_rsv (by omega) (by omega)

theorem initKeyed (klen idlen clen : Nat) : Statement (.initKeyed klen idlen clen) := by
  intro h
  simp only [Instr.wf, Bool.and_eq_true] at h
  exact commandWord_rsv (by omega)
    (keyedArg_lt (of_decide_eq_true h.1.1) (of_decide_eq_true h.1.2) (of_decide_eq_true h.2))

theorem absorb (len : Nat) : Statement (.absorb len) := by
  intro h
  have : len ≤ 16777215 := of_decide_eq_true h
  exact commandWord_rsv (by omega) (by omega)

theorem encrypt (len : Nat) : Statement (.encrypt len) := by
  intro h
  have : len ≤ 16777215 := of_decide_eq_true h
  exact commandWord_rsv (by omega) (by omega)

theorem decrypt (len : Nat) : Statement (.decrypt len) := by
  intro h
  have : len ≤ 16777215 := of_decide_eq_true h
  exact commandWord_rsv (by omega) (by omega)

theorem squeeze (len : Nat) : Statement (.squeeze len) := by
  intro h
  have : len ≤ 16777215 := of_decide_eq_true h
  exact commandWord_rsv (by omega) (by omega)

theorem squeezeKey (len : Nat) : Statement (.squeezeKey len) := by
  intro h
  have : len ≤ 16777215 := of_decide_eq_true h
  exact commandWord_rsv (by omega) (by omega)

theorem ratchet : Statement .ratchet := fun _ =>
  commandWord_rsv (by omega) (by omega)

theorem zeroize : Statement .zeroize := fun _ =>
  commandWord_rsv (by omega) (by omega)

end Sys2Proof.Laws.ReservedZero
end

