-- ==== Sys2Proof/Tests/Slice0.lean ====
section
/-! SUPPORT. Small tests. The expected values are the spec's: 95_test_vectors.md (the toy function and descriptors of its
part 2, the vectors of its part 3), the worked examples of the rules, and words written out from 30 R61 to R63. -/

namespace Sys2Proof.Tests

open Sys2Proof Sys2Proof.Machine

/-- The cascade of `f_toy` (95 part 2) from offset `i` on; `first` is the original `t[0]`. -/
def toyFrom (first : Byte) : Nat → Bytes → Bytes
  | _, [] => []
  | i, x :: xs =>
    match toyFrom first (i + 1) xs with
    | [] => [x + first + BitVec.ofNat 8 (i + 1)]
    | y :: ys => (x + y + BitVec.ofNat 8 (i + 1)) :: y :: ys

/-- `f_toy` (95 part 2). -/
def toyF (b : Bytes) : Bytes := toyFrom (b.headD 0#8) 0 b

theorem toyFrom_length (first : Byte) (i : Nat) (b : Bytes) : (toyFrom first i b).length = b.length := by
  induction b generalizing i with
  | nil => rfl
  | cons x xs ih =>
    have h := ih (i + 1)
    simp only [toyFrom]
    split <;> simp_all

theorem toyF_length (b : Bytes) : (toyF b).length = b.length := toyFrom_length _ _ _

/-- Descriptor `T8` (95 part 2). -/
def T8 : Descriptor where
  toDimensions := ⟨8, 4, 3, 6, 4, 2⟩
  f := toyF
  legal := by decide
  f_length := fun b h => (toyF_length b).trans h

/-- Descriptor `T8B`: every rate is `W-1` (95 part 2). -/
def T8B : Descriptor where
  toDimensions := ⟨8, 7, 7, 7, 7, 7⟩
  f := toyF
  legal := by decide
  f_length := fun b h => (toyF_length b).trans h

/-- Descriptor `T8C`: `r_ratchet` above both keyed rates (95 part 2). -/
def T8C : Descriptor where
  toDimensions := ⟨8, 4, 3, 3, 2, 5⟩
  f := toyF
  legal := by decide
  f_length := fun b h => (toyF_length b).trans h

/-- Descriptor `XOO-toy`: the Xoodoo parameters with the toy function (95 part 2). -/
def XOO : Descriptor where
  toDimensions := Dimensions.xoodoo12
  f := toyF
  legal := by decide
  f_length := fun b h => (toyF_length b).trans h

/-- A byte string from numbers. -/
def bs (l : List Nat) : Bytes := l.map (BitVec.ofNat 8)

/-- A live engine over `P`, in mode `m` and phase `p`, with the buffer `b` and the payload `d` on `DIN`. -/
def live (P : Descriptor) (m : Mode) (p : Phase) (b d : List Nat) : State :=
  { State.resetOf P with
    buf := bs b, phase := p, mode := m, absorbRate := (ratesOf P m).1, squeezeRate := (ratesOf P m).2, valid := true,
    din := bs d }

/-- The command ended with this buffer, this output and this one response, its payload all taken. -/
def shows (o : Host.Outcome State Fault Refusal) (buf out : List Nat) (rsp : Word) : Bool :=
  match o with
  | .next t => t.buf == bs buf && t.dout == bs out && t.rsp == [rsp] && t.din == []
  | .fault _ => false
  | .refused _ => false

/-! ### Well-formedness: one ill-formed term per check (00 R8, 30 R71) -/

theorem test_wf_largest : (Instr.absorb 16777215).wf = true ∧ (Instr.initKeyed 255 255 255).wf = true := by decide
theorem test_wf_keyTooLong : (Instr.initKeyed 256 0 0).wf = false := by decide
theorem test_wf_idTooLong : (Instr.initKeyed 0 256 0).wf = false := by decide
theorem test_wf_counterTooLong : (Instr.initKeyed 0 0 256).wf = false := by decide
theorem test_wf_absorbTooLong : (Instr.absorb 16777216).wf = false := by decide
theorem test_wf_encryptTooLong : (Instr.encrypt 16777216).wf = false := by decide
theorem test_wf_decryptTooLong : (Instr.decrypt 16777216).wf = false := by decide
theorem test_wf_squeezeTooLong : (Instr.squeeze 16777216).wf = false := by decide
theorem test_wf_squeezeKeyTooLong : (Instr.squeezeKey 16777216).wf = false := by decide

/-! ### Decoding: one word per command, written out bit by bit from 30 R61 and R63 (`OPC`, `RSV`, `ARG`) -/

theorem test_decode_initHash : decode 0b0001_0000_0000_0000_0000_0000_0000_0000#32 = .instr .initHash := by decide
/-- `CLEN = 3`, `IDLEN = 2`, `KLEN = 16`. -/
theorem test_decode_initKeyed :
    decode 0b0010_0000_0000_0011_0000_0010_0001_0000#32 = .instr (.initKeyed 16 2 3) := by decide
theorem test_decode_absorb : decode 0b0011_0000_0000_0000_0000_0000_0000_0111#32 = .instr (.absorb 7) := by decide
theorem test_decode_encrypt : decode 0b0100_0000_1000_0000_0000_0000_0000_0001#32 = .instr (.encrypt 8388609) := by decide
theorem test_decode_decrypt : decode 0b0101_0000_0000_0000_0000_0001_0000_0000#32 = .instr (.decrypt 256) := by decide
theorem test_decode_squeeze : decode 0b0110_0000_0000_0000_0000_0000_0010_0000#32 = .instr (.squeeze 32) := by decide
theorem test_decode_squeezeKey :
    decode 0b0111_0000_0000_0000_0000_0000_0001_0000#32 = .instr (.squeezeKey 16) := by decide
theorem test_decode_ratchet : decode 0b1000_0000_0000_0000_0000_0000_0000_0000#32 = .instr .ratchet := by decide
theorem test_decode_zeroize : decode 0b1001_0000_0000_0000_0000_0000_0000_0000#32 = .instr .zeroize := by decide
/-- The illegal words of 95 part 3.1. -/
theorem test_decode_illegal :
    decode 0x00000000#32 = .illegal .reservedOpcode ∧ decode 0xFFFFFFFF#32 = .illegal .reservedBits ∧
    decode 0x10000001#32 = .illegal .nonzeroArgument ∧ decode 0x11000000#32 = .illegal .reservedBits ∧
    decode 0x90800000#32 = .illegal .nonzeroArgument ∧ decode 0xF0000000#32 = .illegal .reservedOpcode := by decide
/-- Bytes arrive least significant first (20 R42). -/
theorem test_decode_bytes :
    decodeBytes [0x07#8, 0x00#8, 0x00#8, 0x30#8, 0x58#8] = (.instr (.absorb 7), [0x58#8]) ∧
    (decodeBytes [0x07#8, 0x00#8, 0x00#8]).1 = .illegal .truncated := by decide
/-- No two rows of the opcode map overlap (30 R63). -/
theorem test_opcode_rows_disjoint :
    opcodeTable.Pairwise fun r r' => (r.pattern ^^^ r'.pattern) &&& (r.mask &&& r'.mask) ≠ 0#32 := by decide

/-! ### The toy function and the primitives alone (95 parts 2, 3.2, 3.3) -/

theorem test_toy : toyF (bs [1, 2, 3, 4, 5, 6, 7, 8]) = bs [0x49, 0x47, 0x43, 0x3d, 0x35, 0x2b, 0x1f, 0x11] := by decide
theorem test_split_exact : (split (bs [1, 2, 3, 4, 5, 6, 7, 8]) 4).map (·.length) = [4, 4] := by decide
theorem test_split_empty : split [] 4 = [[]] := by decide
/-- `len(X) = r`: padding and frame byte meet at offset 6 (41 R94 (b)). -/
theorem test_down_keyed_full :
    (down T8 (bs [1, 2, 3, 4, 5, 0]) 6 0x02#8 (live T8 .keyed .up [0, 0, 0, 0, 0, 0, 0, 0] [])).buf =
      bs [1, 2, 3, 4, 5, 0, 3, 0] := by decide
/-- `len(X) = W-1`: padding and frame byte meet at offset 7 (41 R94 (d)). -/
theorem test_down_hash_full :
    (down T8B (bs [0x11, 0x12, 0x13, 0x14, 0x15, 0x16, 0x17]) 7 0x03#8
      (live T8B .hash .up [0, 0, 0, 0, 0, 0, 0, 0] [])).buf =
      bs [0x11, 0x12, 0x13, 0x14, 0x15, 0x16, 0x17, 0x02] := by decide
theorem test_up_keyed :
    (up T8 2 0x40#8 (live T8 .keyed .down [0xa1, 0xa2, 0xa3, 0, 1, 0, 2, 0] [])).1 = bs [0xee, 0x4c] := by decide

/-! ### One command each (95 parts 3.4 to 3.8) -/

theorem test_initHash : shows (initHashCommand T8 (live T8 .keyed .down [1, 2, 3, 4, 5, 6, 7, 8] []))
    [0, 0, 0, 0, 0, 0, 0, 0] [] 0x00000100#32 := by decide
/-- Key, identifier and a two-byte counter. -/
theorem test_initKeyed : shows (initKeyedCommand T8 3 1 2
      (live T8 .keyed .up [0xdf, 0xb0, 0xef, 0xd2, 0x5a, 0x96, 0xd7, 0x1f] [0xa1, 0xa2, 0xa3, 0xb1, 1, 2]))
    [0x04, 0xa5, 0xe3, 0xc6, 0x4e, 0x8a, 0xcb, 0x12] [] 0x00000700#32 := by decide
/-- `4 + 2 + 1 > 6`. -/
theorem test_initKeyed_tooLong : shows (initKeyedCommand T8 4 2 1
      (live T8 .hash .up [0, 0, 0, 0, 0, 0, 0, 0] [1, 2, 3, 4, 0xaa, 0xbb, 0xcc]))
    [0, 0, 0, 0, 0, 0, 0, 0] [] 0x00000001#32 := by decide
/-- From phase Down, three chunks, the last of one byte. -/
theorem test_absorb_threeChunks : shows (absorbCommand T8 9
      (live T8 .hash .down [0x3a, 0x97, 0x0b, 0xf6, 0xed, 0x2d, 0x8f, 0x0f]
        [0x20, 0x21, 0x22, 0x23, 0x24, 0x25, 0x26, 0x27, 0x28]))
    [0x44, 0x8d, 0x73, 0xee, 0x9e, 0x56, 0x20, 0x09] [] 0x00000500#32 := by decide
theorem test_absorb_empty : shows (absorbCommand T8 0 (live T8 .hash .up [0, 0, 0, 0, 0, 0, 0, 0] []))
    [1, 0, 0, 0, 0, 0, 0, 3] [] 0x00000500#32 := by decide
/-- From phase Up, three blocks. -/
theorem test_squeeze_threeBlocks : shows (squeezeCommand T8 7
      (live T8 .hash .up [0x76, 0xbf, 0x4b, 0x65, 0xf4, 0x74, 0x96, 0x13] []))
    [0x55, 0x7f, 0x3d, 0x16, 0x4a, 0x8c, 0x74, 0x0a] [0x92, 0x1a, 0x59, 0xd4, 0x40, 0x24, 0x55]
    0x00000100#32 := by decide
theorem test_squeeze_none : shows (squeezeCommand T8 0
      (live T8 .hash .down [0x44, 0x8d, 0x73, 0xee, 0x9e, 0x56, 0x20, 0x09] []))
    [0xb7, 0x72, 0xe3, 0x6d, 0x7b, 0xd8, 0x7c, 0x55] [] 0x00000100#32 := by decide
theorem test_squeezeKey_keyed : shows (squeezeKeyCommand T8 2
      (live T8 .keyed .down [0xa1, 0xa2, 0xa3, 0, 1, 0, 2, 0] []))
    [0xce, 0x2c, 0x88, 0xe2, 0xde, 0xd8, 0xd2, 0xc9] [0xce, 0x2c] 0x00000300#32 := by decide
/-- `hello!`, two chunks. -/
theorem test_encrypt_twoChunks : shows (encryptCommand T8 6
      (live T8 .keyed .down [0xa1, 0xa2, 0xa3, 0, 1, 0, 2, 0] [0x68, 0x65, 0x6c, 0x6c, 0x6f, 0x21]))
    [0x2f, 0xff, 0xa1, 0x76, 0xe6, 0xc6, 0xe9, 0xc9] [0x61, 0x3c, 0x27, 0x8c, 0x2f, 0xff] 0x00000700#32 := by decide
/-- In Hash mode: the payload is taken, nothing else happens. -/
theorem test_decrypt_hashMode : shows (decryptCommand T8 1 (live T8 .hash .up [0, 0, 0, 0, 0, 0, 0, 0] [0x41]))
    [0, 0, 0, 0, 0, 0, 0, 0] [] 0x00000104#32 := by decide
theorem test_decrypt_twoChunks : shows (decryptCommand T8 6
      (live T8 .keyed .down [0xa1, 0xa2, 0xa3, 0, 1, 0, 2, 0] [0x61, 0x3c, 0x27, 0x8c, 0x2f, 0xff]))
    [0x2f, 0xff, 0xa1, 0x76, 0xe6, 0xc6, 0xe9, 0xc9] [0x68, 0x65, 0x6c, 0x6c, 0x6f, 0x21] 0x00000700#32 := by decide
theorem test_ratchet_fromUp : shows (ratchetCommand T8
      (live T8 .keyed .up [0xee, 0x4c, 0xa8, 0x02, 0xfe, 0xf8, 0xf2, 0xe9] []))
    [0, 0, 0x9a, 0xf0, 0xea, 0xe7, 0xe9, 0xf0] [] 0x00000700#32 := by decide
/-- `r_ratchet` above both keyed rates. -/
theorem test_ratchet_multiBlock : shows (ratchetCommand T8C (live T8C .keyed .down [0xa1, 0, 1, 2, 0, 0, 0, 0] []))
    [0xa5, 0x0f, 0xea, 0x5b, 0x8c, 0x32, 0x78, 0x8f] [] 0x00000700#32 := by decide
theorem test_zeroize : shows (zeroizeCommand T8 (live T8 .keyed .down [1, 2, 3, 4, 5, 6, 7, 8] []))
    [0, 0, 0, 0, 0, 0, 0, 0] [] 0x00000000#32 := by decide
theorem test_squeezeKey_noInstance : shows (squeezeKeyCommand T8 2 (State.resetOf T8))
    [0, 0, 0, 0, 0, 0, 0, 0] [] 0x00000003#32 := by decide
/-- Payload that has not all arrived (70 R175). -/
theorem test_encrypt_starved :
    encryptCommand T8 2 (live T8 .keyed .down [0, 0, 0, 0, 0, 0, 0, 0] [1]) = .fault .stuckAwaitingPayload := rfl
/-- The worked example of 43 R120 on the 48-byte geometry: the message and the padding at the front. -/
theorem test_absorb_xoodoo :
    (absorbAny XOO (bs [0x58, 0x6f, 0x6f, 0x64, 0x79, 0x61, 0x6b]) 44 0x03#8
      (construct .hash 44 24 (State.resetOf XOO))).buf =
      bs [0x58, 0x6f, 0x6f, 0x64, 0x79, 0x61, 0x6b, 0x01] ++ zeros 39 ++ [0x03#8] := by decide

/-! ### The host's part (45 R144, R145; 95 part 4, program P2) -/

/-- The words of program P2: key, nonce, associated data, plaintext, tag, and the `ZEROIZE` at the end. -/
theorem test_sealUse :
    (sealUse (bs [0xa1, 0xa2, 0xa3]) (bs [0x0f]) (bs [0x68, 0x64, 0x72]) (bs [0x68, 0x65, 0x6c, 0x6c, 0x6f, 0x21]) 4).map
      (encode ·.instr) =
      [0x20000003#32, 0x30000001#32, 0x30000003#32, 0x40000006#32, 0x60000004#32, 0x90000000#32] := by decide
/-- After a successful `open` the use still ends with `ZEROIZE`, and after a failed one it has one `ZEROIZE` only. -/
theorem test_openUse :
    ((openUse [] [] [] [] 4 (.plaintext [])).drop 5).map (encode ·.instr) = [0x90000000#32] ∧
    ((openUse [] [] [] [] 4 .tagMismatch).drop 5).map (encode ·.instr) = [0x90000000#32] := by decide
/-- The tags of program P2: `02 48 7c 4d` against itself, and the `0a 50 84 52` of the changed ciphertext. -/
theorem test_openResult :
    openResult (bs [1]) (bs [0x02, 0x48, 0x7c, 0x4d]) (bs [0x02, 0x48, 0x7c, 0x4d]) = .plaintext (bs [1]) ∧
    openResult (bs [1]) (bs [0x0a, 0x50, 0x84, 0x52]) (bs [0x02, 0x48, 0x7c, 0x4d]) = .tagMismatch := by decide
/-- The plaintext `69 65 6c 6c 61 26` of program P2's changed ciphertext is overwritten; that of the right one is released. -/
theorem test_copyAfterOpen :
    copyAfterOpen (bs [0x69, 0x65, 0x6c, 0x6c, 0x61, 0x26]) .tagMismatch = bs [0, 0, 0, 0, 0, 0] ∧
    copyAfterOpen (bs [0x68, 0x65, 0x6c, 0x6c, 0x6f, 0x21]) (.plaintext (bs [0x68, 0x65, 0x6c, 0x6c, 0x6f, 0x21])) =
      bs [0x68, 0x65, 0x6c, 0x6c, 0x6f, 0x21] := by decide
/-- A difference in the first byte stops the comparison no sooner than one in the last (45 R145 (a)). -/
theorem test_compareTags :
    compareTags (bs [0x03, 0x48, 0x7c]) (bs [0x02, 0x48, 0x7c]) = (0x01#8, 3) ∧
    compareTags (bs [0x02, 0x48, 0x7c]) (bs [0x02, 0x48, 0x7d]) = (0x01#8, 3) := by decide

/-! ### Witnesses: for each obligation with hypotheses, states and operands that meet all of them together -/

/-- A live engine over the open descriptor, with the payload `d` on `DIN`. -/
def liveP (m : Mode) (p : Phase) (d : Bytes) : State :=
  { State.reset with
    phase := p, mode := m, absorbRate := (ratesOf Config.P m).1, squeezeRate := (ratesOf Config.P m).2, valid := true,
    din := d }

theorem liveP_inv (m : Mode) (p : Phase) (d : Bytes) : Inv Config.P (liveP m p d) where
  width := zeros_length _
  scratch := rfl
  noInstance := fun h => nomatch h
  rates := fun _ => rfl

theorem reset_inv : Inv Config.P State.reset := (resetOf_zeroised Config.P).inv

/-- A command whose payload is there answers a next state. -/
theorem answers {i : Instr} {s : State} (h : PayloadReady i s) : ∃ t, exec i s = .next t :=
  ⟨_, (exec_eq i s).trans (runCommand_ready h)⟩

/-- A state in which the host's next act is `h`. -/
def offered (h : HostInput) (d : Bytes) : State := { State.reset with cmd := [h], din := d }

theorem witness_DecodeOfEncode :
    (Instr.initKeyed 255 255 255).wf = true ∧ (Instr.squeeze 16777215).wf = true ∧ (Instr.absorb 0).wf = true := by decide

theorem witness_EncodeOfDecode :
    decode 0x30FFFFFF#32 = .instr (.absorb 16777215) ∧ decode 0x20FFFFFF#32 = .instr (.initKeyed 255 255 255) := by decide

theorem witness_DecodeFollowsOpcodeMap :
    ∃ r ∈ opcodeTable, r.selects 0x30FFFFFF#32 = true ∧ ∃ r' ∈ opcodeTable, r'.selects 0x30FFFFFF#32 = true :=
  ⟨⟨"ABSORB", 0x30000000#32, 0xFF000000#32⟩, by decide, by decide,
    ⟨"ABSORB", 0x30000000#32, 0xFF000000#32⟩, by decide, by decide⟩

/-- Also the clauses for an illegal word of OutputLength, ErrorsArePrecise and PermutationCalls. -/
theorem witness_IllegalWords :
    (offered (.command 0xA0000000#32) []).cmd = .command 0xA0000000#32 :: [] ∧
      decode 0xA0000000#32 = .illegal .reservedOpcode ∧
      ∃ t, step (offered (.command 0xA0000000#32) []) = .next t := ⟨rfl, by decide, _, rfl⟩

theorem witness_StepRunsDecodedCommand :
    (offered (.command 0x90000000#32) []).cmd = .command 0x90000000#32 :: [] ∧
      decode 0x90000000#32 = .instr .zeroize := ⟨rfl, by decide⟩

theorem witness_IdleEngineWaits : State.reset.cmd = [] := rfl

/-- One payload byte short, and exactly enough. -/
theorem witness_PayloadFraming :
    (offered (.command 0x30000002#32) [0#8]).cmd = .command 0x30000002#32 :: [] ∧
      decode 0x30000002#32 = .instr (.absorb 2) ∧ (offered (.command 0x30000002#32) [0#8]).din.length < 2 ∧
      2 ≤ (offered (.command 0x30000002#32) [0#8, 1#8]).din.length := ⟨rfl, by decide, by decide, by decide⟩

theorem witness_OutputLength :
    Inv Config.P (liveP .keyed .down [1#8]) ∧ ∃ t, exec (.encrypt 1) (liveP .keyed .down [1#8]) = .next t :=
  ⟨liveP_inv _ _ _, answers (Nat.le_refl 1)⟩

/-- The clause for an error: no instance. -/
theorem witness_OutputLength_error :
    Inv Config.P State.reset ∧ ∃ t, exec (.squeeze 1) State.reset = .next t :=
  ⟨reset_inv, answers (Nat.zero_le _)⟩

theorem witness_ResponseOfEveryCommand :
    (offered (.command 0x00000000#32) []).cmd = .command 0x00000000#32 :: [] ∧
      ∃ t, step (offered (.command 0x00000000#32) []) = .next t := ⟨rfl, _, rfl⟩

/-- An error that changes nothing: ENCRYPT in Hash mode. -/
theorem witness_ErrorsArePrecise : ∃ t w, exec (.encrypt 0) (liveP .hash .up []) = .next t ∧
    t.rsp = (liveP .hash .up []).rsp ++ [w] ∧ w.extractLsb' 0 8 = 0x04#8 :=
  ⟨_, 0x00000104#32, (exec_eq _ _).trans (runCommand_ready (Nat.le_refl 0)), rfl, by decide⟩

/-- The error that zeroises: a key of `r_keyed_absorb` bytes. -/
theorem witness_ErrorsArePrecise_invalidKey :
    ∃ t w, exec (.initKeyed Config.P.rKeyedAbsorb 0 0) (liveP .keyed .down (zeros Config.P.rKeyedAbsorb)) = .next t ∧
      t.rsp = (liveP .keyed .down (zeros Config.P.rKeyedAbsorb)).rsp ++ [w] ∧ w.extractLsb' 0 8 = 0x01#8 := by
  have p : PayloadReady (.initKeyed Config.P.rKeyedAbsorb 0 0) (liveP .keyed .down (zeros Config.P.rKeyedAbsorb)) := by
    simp [PayloadReady, payloadLen, liveP]
  have e := exec_ok p (by simp [needsInstance]) (by simp [needsKeyed])
  refine ⟨_, 0x00000001#32, e, ?_, by decide⟩
  simp [ruleOf, initKeyedRule, raise, finish_eq, zeroise_eq, responseWord, statusCode, validBit, modeBit, phaseBit]

theorem witness_NoInstanceError :
    IsOperation .ratchet ∧ State.reset.valid = false ∧ PayloadReady .ratchet State.reset :=
  ⟨.inl rfl, rfl, Nat.le_refl 0⟩

theorem witness_ModeError : IsKeyedOnly (.decrypt 1) ∧ (liveP .hash .down [1#8]).valid = true ∧
    (liveP .hash .down [1#8]).mode = .hash ∧ PayloadReady (.decrypt 1) (liveP .hash .down [1#8]) :=
  ⟨.inr ⟨1, .inr rfl⟩, rfl, rfl, Nat.le_refl 1⟩

/-- The smallest key that fails (42 R113 (g)). -/
theorem witness_InvalidKeyError : Config.P.rKeyedAbsorb + 0 + 1 > Config.P.rKeyedAbsorb ∧
    Config.P.rKeyedAbsorb + 0 + 0 ≤ (liveP .keyed .up (zeros Config.P.rKeyedAbsorb)).din.length :=
  ⟨by omega, by simp [liveP]⟩

theorem witness_ResetStep : (offered .reset []).cmd = .reset :: [] := rfl

/-- A word, and its full payload, so that the unaborted run answers too. -/
theorem witness_ResetDuringCommand :
    (offered (.resetDuring 0x60000003#32) []).cmd = .resetDuring 0x60000003#32 :: [] ∧
      decode 0x60000003#32 = .instr (.squeeze 3) ∧
      ∃ u, exec (.squeeze 3) { offered (.resetDuring 0x60000003#32) [] with cmd := [] } = .next u :=
  ⟨rfl, by decide, answers (Nat.zero_le _)⟩

/-- ENCRYPT of two bytes with one supplied: the command on the supplied byte answers (20 R52). -/
theorem witness_ResetDuringCommand_starved :
    let s := { liveP .keyed .down [1#8] with cmd := [.resetDuring 0x40000002#32] }
    s.cmd = .resetDuring 0x40000002#32 :: [] ∧ decode 0x40000002#32 = .instr (.encrypt 2) ∧ Inv Config.P s ∧
      exec (.encrypt 2) { s with cmd := [] } = .fault .stuckAwaitingPayload ∧
      ∃ u, exec (shortened (min (payloadLen (.encrypt 2)) s.din.length) (.encrypt 2)) { s with cmd := [] } = .next u :=
  ⟨rfl, by decide, (liveP_inv _ _ [1#8]).of_same (SameEngine.refl _), rfl, answers (Nat.le_refl 1)⟩

/-- The clause for an illegal word. -/
theorem witness_ResetDuringCommand_illegal :
    (offered (.resetDuring 0x00000000#32) []).cmd = .resetDuring 0x00000000#32 :: [] ∧
      decode 0x00000000#32 = .illegal .reservedOpcode := ⟨rfl, by decide⟩

/-- Already zeroised, and an operation afterwards. -/
theorem witness_ZeroizeResult : Zeroised Config.P State.reset ∧ IsOperation (.squeeze 0) ∧
    PayloadReady (.squeeze 0) State.reset := ⟨resetOf_zeroised _, .inr ⟨0, by simp⟩, Nat.le_refl 0⟩

/-- The longest key that passes, with a counter of one byte. -/
theorem witness_InitKeyedResult :
    (zeros (Config.P.rKeyedAbsorb - 1)).length + ([] : Bytes).length + 1 ≤ Config.P.rKeyedAbsorb ∧
      (liveP .hash .up (zeros (Config.P.rKeyedAbsorb - 1) ++ [] ++ [7#8] ++ [])).din =
        zeros (Config.P.rKeyedAbsorb - 1) ++ [] ++ [7#8] ++ [] := by
  have := (descriptor_bounds Config.P).2.2.1
  exact ⟨by simp; omega, rfl⟩

theorem witness_ConstructionForgets : ¬ IsOperation .initHash ∧ (liveP .keyed .down []).din = State.reset.din ∧
    (∃ t, exec .initHash (liveP .keyed .down []) = .next t) ∧ ∃ t, exec .initHash State.reset = .next t :=
  ⟨by simp [IsOperation], rfl, answers (Nat.le_refl 0), answers (Nat.le_refl 0)⟩

/-- The clause for a reset: over a live instance, and with none. -/
theorem witness_ConstructionForgets_reset :
    ({ liveP .keyed .down [1#8] with cmd := [.reset] } : State).cmd = .reset :: [] ∧
      (offered .reset []).cmd = .reset :: [] ∧
      (∃ t, step { liveP .keyed .down [1#8] with cmd := [.reset] } = .next t) ∧
      ∃ t, step (offered .reset []) = .next t := ⟨rfl, rfl, ⟨_, rfl⟩, _, rfl⟩

theorem witness_OperationsKeepInstance : Inv Config.P (liveP .keyed .down []) ∧ IsOperation .ratchet ∧
    ∃ t, exec .ratchet (liveP .keyed .down []) = .next t := ⟨liveP_inv _ _ _, .inl rfl, answers (Nat.le_refl 0)⟩

/-- An exact multiple, so that there is a chunk before the last one, and a last one that is full. -/
theorem witness_SplitIsGreedyCut : 0 < 2 ∧ 0 + 1 < max 1 (([1#8, 2#8, 3#8, 4#8] : Bytes).length + 2 - 1) / 2 ∧
    (split [1#8, 2#8, 3#8, 4#8] 2)[0]? = some [1#8, 2#8] ∧
    (split [1#8, 2#8, 3#8, 4#8] 2)[2 - 1]? = some [3#8, 4#8] ∧ ([1#8, 2#8, 3#8, 4#8] : Bytes) ≠ [] := by decide

/-- A block of `r` bytes with `r = W - 1`: padding and frame byte share an offset. -/
theorem witness_DownEffect : State.BufWidth T8B (live T8B .hash .up [0, 0, 0, 0, 0, 0, 0, 0] []) ∧
    (bs [1, 2, 3, 4, 5, 6, 7]).length ≤ 7 ∧ 7 ≤ T8B.w - 1 := by decide

theorem witness_UpEffect :
    State.BufWidth T8 (live T8 .keyed .down [0, 0, 0, 0, 0, 0, 0, 0] []) ∧ 7 ≤ T8.w - 1 := by decide

theorem witness_AbsorbAnyBlocks : 0 < 7 ∧ 7 ≤ T8B.w - 1 ∧ (bs [1, 2, 3, 4, 5, 6, 7]).length ≤ 7 ∧
    7 < (bs [1, 2, 3, 4, 5, 6, 7, 8]).length := by decide

theorem witness_SqueezeAnyBlocks : 0 < (live T8 .hash .up [0, 0, 0, 0, 0, 0, 0, 0] []).squeezeRate ∧
    (live T8 .hash .up [0, 0, 0, 0, 0, 0, 0, 0] []).squeezeRate ≤ T8.w - 1 ∧
    3 ≤ (live T8 .hash .up [0, 0, 0, 0, 0, 0, 0, 0] []).squeezeRate ∧
    (live T8 .hash .up [0, 0, 0, 0, 0, 0, 0, 0] []).squeezeRate < 4 := by decide

theorem witness_CryptBlocks : State.BufWidth T8 (live T8 .keyed .down [0, 0, 0, 0, 0, 0, 0, 0] []) ∧
    (bs [1, 2, 3, 4]).length ≤ T8.rKeyedSqueeze ∧ T8.rKeyedSqueeze < (bs [1, 2, 3, 4, 5]).length := by decide

theorem witness_AbsorbCompletes : Inv Config.P (liveP .keyed .down ([1#8] ++ [2#8])) ∧
    (liveP .keyed .down ([1#8] ++ [2#8])).valid = true ∧
    (liveP .keyed .down ([1#8] ++ [2#8])).din = [1#8] ++ [2#8] := ⟨liveP_inv _ _ _, rfl, rfl⟩

/-- A string of exactly `absorb_rate` bytes. -/
theorem witness_AbsorbOneBlock : Inv Config.P (liveP .hash .up (zeros Config.P.rAbsorb ++ [])) ∧
    (liveP .hash .up (zeros Config.P.rAbsorb ++ [])).valid = true ∧
    (liveP .hash .up (zeros Config.P.rAbsorb ++ [])).din = zeros Config.P.rAbsorb ++ [] ∧
    (zeros Config.P.rAbsorb).length ≤ (liveP .hash .up (zeros Config.P.rAbsorb ++ [])).absorbRate :=
  ⟨liveP_inv _ _ _, rfl, rfl, by simp [liveP, ratesOf]⟩

theorem witness_SqueezesComplete : Inv Config.P (liveP .hash .up []) ∧ (liveP .hash .up []).valid = true ∧
    (Instr.squeeze 5 = .squeeze 5 ∧ 0x40#8 = 0x40#8 ∨ Instr.squeeze 5 = .squeezeKey 5 ∧ 0x40#8 = 0x20#8) ∧
    (Instr.squeezeKey 5 = .squeeze 5 ∧ 0x20#8 = 0x40#8 ∨ Instr.squeezeKey 5 = .squeezeKey 5 ∧ 0x20#8 = 0x20#8) :=
  ⟨liveP_inv _ _ _, rfl, by decide, by decide⟩

/-- An output of exactly `squeeze_rate` bytes. -/
theorem witness_SqueezeOneBlock : Inv Config.P (liveP .keyed .up []) ∧ (liveP .keyed .up []).valid = true ∧
    Config.P.rKeyedSqueeze ≤ (liveP .keyed .up []).squeezeRate ∧
    (Instr.squeezeKey Config.P.rKeyedSqueeze = .squeeze Config.P.rKeyedSqueeze ∧ 0x20#8 = 0x40#8 ∨
      Instr.squeezeKey Config.P.rKeyedSqueeze = .squeezeKey Config.P.rKeyedSqueeze ∧ 0x20#8 = 0x20#8) :=
  ⟨liveP_inv _ _ _, rfl, Nat.le_refl _, .inr ⟨rfl, rfl⟩⟩

theorem witness_SqueezeKeyIsSqueezeInHashMode : (liveP .hash .down []).mode = .hash := rfl

/-- Both cases of its hypothesis: SQUEEZE in Hash mode. -/
theorem witness_SqueezeOutputIsStream : Inv Config.P (liveP .hash .down []) ∧ 0 ≤ 9 ∧
    (Instr.squeeze 0 = .squeeze 0 ∧ Instr.squeeze 9 = .squeeze 9 ∨
      Instr.squeeze 0 = .squeezeKey 0 ∧ Instr.squeeze 9 = .squeezeKey 9) ∧
    (∃ t, exec (.squeeze 0) (liveP .hash .down []) = .next t) ∧
    ∃ u, exec (.squeeze 9) (liveP .hash .down []) = .next u :=
  ⟨liveP_inv _ _ _, by omega, .inl ⟨rfl, rfl⟩, answers (Nat.zero_le _), answers (Nat.zero_le _)⟩

/-- The other case: SQUEEZE_KEY in Keyed mode. -/
theorem witness_SqueezeOutputIsStream_key : Inv Config.P (liveP .keyed .up []) ∧ 3 ≤ 4 ∧
    (Instr.squeezeKey 3 = .squeeze 3 ∧ Instr.squeezeKey 4 = .squeeze 4 ∨
      Instr.squeezeKey 3 = .squeezeKey 3 ∧ Instr.squeezeKey 4 = .squeezeKey 4) ∧
    (∃ t, exec (.squeezeKey 3) (liveP .keyed .up []) = .next t) ∧
    ∃ u, exec (.squeezeKey 4) (liveP .keyed .up []) = .next u :=
  ⟨liveP_inv _ _ _, by omega, .inr ⟨rfl, rfl⟩, answers (Nat.zero_le _), answers (Nat.zero_le _)⟩

theorem witness_CryptCommandsComplete : Inv Config.P (liveP .keyed .up ([1#8] ++ [])) ∧
    (liveP .keyed .up ([1#8] ++ [])).valid = true ∧ (liveP .keyed .up ([1#8] ++ [])).mode = .keyed ∧
    (liveP .keyed .up ([1#8] ++ [])).din = [1#8] ++ [] ∧
    (Instr.decrypt ([1#8] : Bytes).length = .encrypt ([1#8] : Bytes).length ∧ true = false ∨
      Instr.decrypt ([1#8] : Bytes).length = .decrypt ([1#8] : Bytes).length ∧ true = true) :=
  ⟨liveP_inv _ _ _, rfl, rfl, rfl, .inr ⟨rfl, rfl⟩⟩

/-- A block of exactly `r_keyed_squeeze` zero bytes: the ciphertext is the keystream. -/
theorem witness_CryptOneBlock : let n := Config.P.rKeyedSqueeze
    let s := liveP .keyed .up (zeros n ++ [])
    ∃ (B C : Bytes), Inv Config.P s ∧ s.valid = true ∧ s.mode = .keyed ∧ (zeros n).length ≤ Config.P.rKeyedSqueeze ∧
      XoredWith Config.P (freshBuf Config.P s) B (fun j => byteAt 0 0x01#8 j ^^^ byteAt Config.P.rKeyedSqueeze 0x80#8 j) ∧
      C.length = (zeros n).length ∧
      (∀ j < (zeros n).length, C.getD j 0#8 = (zeros n).getD j 0#8 ^^^ (Config.P.f B).getD j 0#8) ∧
      s.din = zeros n ++ [] := by
  intro n s
  have b := (descriptor_bounds Config.P).2.2.2.1
  have z : (zeros Config.P.w).length = Config.P.w := zeros_length _
  have w : (((zeros Config.P.w).modify 0 (· ^^^ 0x01#8)).modify n (· ^^^ 0x80#8)).length = Config.P.w := by simp
  refine ⟨_, (Config.P.f (((zeros Config.P.w).modify 0 (· ^^^ 0x01#8)).modify n (· ^^^ 0x80#8))).take n,
    liveP_inv _ _ _, rfl, rfl, by simp [n], ⟨w, fun i hi => ?_⟩, ?_, fun j hj => ?_, rfl⟩
  · rw [modify_getD _ _ _ _ (by simp; omega), modify_getD _ _ _ _ (by omega), BitVec.xor_assoc]; rfl
  · rw [List.length_take, Config.P.f_length _ w, zeros_length]; omega
  · rw [zeros_length] at hj
    have l := Config.P.f_length _ w
    rw [zeros_getD, BitVec.zero_xor, List.getD_eq_getElem _ _ (by rw [List.length_take, l]; omega),
      List.getD_eq_getElem _ _ (by rw [l]; omega), List.getElem_take]

theorem witness_DecryptUndoesEncrypt : Inv Config.P (liveP .keyed .down ([1#8, 2#8] ++ [3#8])) ∧
    (liveP .keyed .down ([1#8, 2#8] ++ [3#8])).valid = true ∧
    (liveP .keyed .down ([1#8, 2#8] ++ [3#8])).mode = .keyed ∧
    (liveP .keyed .down ([1#8, 2#8] ++ [3#8])).din = [1#8, 2#8] ++ [3#8] := ⟨liveP_inv _ _ _, rfl, rfl, rfl⟩

/-- Both cases of its last hypothesis: an ENCRYPT and a DECRYPT with their outputs. -/
theorem witness_CryptLeavesCiphertext : let s := liveP .keyed .down ([1#8] ++ [])
    Inv Config.P s ∧ s.valid = true ∧ s.mode = .keyed ∧
      (∃ C t, C.length = ([1#8] : Bytes).length ∧ s.din = [1#8] ++ [] ∧
        exec (.encrypt ([1#8] : Bytes).length) s = .next t ∧ t.dout = s.dout ++ C) ∧
      ∃ M t, ([1#8] : Bytes).length = M.length ∧ s.din = [1#8] ++ [] ∧
        exec (.decrypt ([1#8] : Bytes).length) s = .next t ∧ t.dout = s.dout ++ M := by
  intro s
  have I : Inv Config.P s := liveP_inv _ _ _
  have k := fun d => (crypt_spec (P := Config.P) [1#8] d (s.setDin [])).2.2 I.width
  have o := fun d => (crypt_spec (P := Config.P) [1#8] d (s.setDin [])).2.1.dout
  refine ⟨I, rfl, rfl, ⟨_, _, k false, rfl, exec_ok (Nat.le_refl 1) (fun _ => rfl) (fun _ => rfl), ?_⟩,
    ⟨_, _, (k true).symm, rfl, exec_ok (Nat.le_refl 1) (fun _ => rfl) (fun _ => rfl), ?_⟩⟩
  · exact congrArg (· ++ _) (o false)
  · exact congrArg (· ++ _) (o true)

theorem witness_CryptOutputIsStream : let s := liveP .keyed .down ([1#8] ++ [])
    let s' := { s with din := [1#8] ++ [2#8] ++ [] }
    Inv Config.P s ∧ s.din = [1#8] ++ [] ∧
      (∃ t, exec (if true then .decrypt ([1#8] : Bytes).length else .encrypt ([1#8] : Bytes).length) s = .next t) ∧
      ∃ u, exec (if true then .decrypt ([1#8] ++ [2#8] : Bytes).length
        else .encrypt ([1#8] ++ [2#8] : Bytes).length) s' = .next u :=
  ⟨liveP_inv _ _ _, rfl, answers (Nat.le_refl 1), answers (Nat.le_refl 2)⟩

theorem witness_RatchetCompletes : Inv Config.P (liveP .keyed .up []) ∧ (liveP .keyed .up []).valid = true ∧
    (liveP .keyed .up []).mode = .keyed := ⟨liveP_inv _ _ _, rfl, rfl⟩

/-- All three rates equal: the bounds met with equality. -/
theorem witness_RatchetOneBlock : T8B.rRatchet ≤ T8B.rKeyedSqueeze ∧ T8B.rRatchet ≤ T8B.rKeyedAbsorb ∧
    Inv T8B (live T8B .keyed .up [0, 0, 0, 0, 0, 0, 0, 0] []) ∧
    (live T8B .keyed .up [0, 0, 0, 0, 0, 0, 0, 0] []).valid = true ∧
    (live T8B .keyed .up [0, 0, 0, 0, 0, 0, 0, 0] []).mode = .keyed :=
  ⟨by decide, by decide, ⟨by decide, by decide, (fun h => nomatch h), fun _ => rfl⟩, rfl, rfl⟩

theorem witness_StepKeepsInv : Inv Config.P (offered (.command 0x10000000#32) []) ∧
    ∃ t, step (offered (.command 0x10000000#32) []) = .next t :=
  ⟨reset_inv.of_same (SameEngine.refl _), _, rfl⟩

/-- With a string already on `PERM`. -/
theorem witness_StepKeepsStreams : Inv Config.P { State.reset with perm := [zeros Config.P.w] } ∧
    PermWidths Config.P { State.reset with perm := [zeros Config.P.w] } ∧
    ∃ t, step { State.reset with perm := [zeros Config.P.w] } = .next t :=
  ⟨reset_inv.of_same (SameEngine.refl _), by simp [PermWidths], _, rfl⟩

/-- A command that ends with `OK`. -/
theorem witness_PermutationCalls : Inv Config.P State.reset ∧ ∃ t w, exec .initHash State.reset = .next t ∧
    t.rsp = State.reset.rsp ++ [w] ∧ w.extractLsb' 0 8 = 0x00#8 :=
  ⟨reset_inv, _, 0x00000100#32, (exec_eq _ _).trans (runCommand_ready (Nat.le_refl 0)), rfl, by decide⟩

/-- A command that ends in an error. -/
theorem witness_PermutationCalls_error : Inv Config.P State.reset ∧ ∃ t w, exec .ratchet State.reset = .next t ∧
    t.rsp = State.reset.rsp ++ [w] ∧ w.extractLsb' 0 8 = 0x03#8 :=
  ⟨reset_inv, _, 0x00000003#32, (exec_eq _ _).trans (runCommand_ready (Nat.le_refl 0)), rfl, by decide⟩

/-- Two engines that differ in their buffer, and two payloads. -/
theorem witness_LengthsDoNotDependOnData : let s := liveP .keyed .down [1#8]
    let s' := { liveP .keyed .down [2#8] with buf := List.replicate Config.P.w 0xFF#8 }
    Inv Config.P s ∧ Inv Config.P s' ∧ s.valid = s'.valid ∧ s.mode = s'.mode ∧ s.phase = s'.phase ∧
      PayloadReady (.encrypt 1) s ∧ PayloadReady (.encrypt 1) s' ∧ (∃ t, exec (.encrypt 1) s = .next t) ∧
      ∃ t', exec (.encrypt 1) s' = .next t' :=
  ⟨liveP_inv _ _ _, ⟨by simp [State.BufWidth], rfl, (fun h => nomatch h), fun _ => rfl⟩, rfl, rfl, rfl, Nat.le_refl 1,
    Nat.le_refl 1, answers (Nat.le_refl 1), answers (Nat.le_refl 1)⟩

theorem witness_OutputIsRateLimited : Inv Config.P (liveP .keyed .down []) ∧
    ∃ t, exec (.squeezeKey 100) (liveP .keyed .down []) = .next t := ⟨liveP_inv _ _ _, answers (Nat.zero_le _)⟩

theorem witness_HashOneBlock : ([0x61#8] : Bytes).length ≤ Config.P.rAbsorb ∧ 1 ≤ Config.P.rSqueeze ∧
    (absorbTx [0x61#8]).instr.wf = true ∧ (squeezeTx 1).instr.wf = true :=
  ⟨(descriptor_bounds Config.P).1.1, (descriptor_bounds Config.P).2.1.1, by decide, by decide⟩

theorem witness_HashOfNoInput : 1 ≤ Config.P.rSqueeze ∧ (squeezeTx 1).instr.wf = true :=
  ⟨(descriptor_bounds Config.P).2.1.1, by decide⟩

theorem witness_AeadRoundTrip : ([] : Bytes).length + 1 ≤ Config.P.rKeyedAbsorb ∧
    ∀ tx ∈ aeadNew [] ++ aeadSeal [1#8] [2#8] [3#8, 4#8] 16, tx.instr.wf = true :=
  ⟨(descriptor_bounds Config.P).2.2.1.1, by decide⟩

theorem witness_KeyedUseEndsZeroised :
    ∀ tx ∈ keyedUse [1#8] [2#8] [3#8] [encryptTx [4#8], ratchetTx, squeezeKeyTx 5],
      tx.instr.wf = true ∧ tx.payload.length = payloadLen tx.instr := by decide

theorem witness_OpenUseEndsZeroised :
    ∀ tx ∈ aeadNew [1#8] ++ aeadOpen [2#8] [] [3#8, 4#8] 16, tx.instr.wf = true := by decide

/-- With a key that fits; each clause is met by some tag, since the tag is free. -/
theorem witness_OpenOutcome : ([] : Bytes).length + 1 ≤ Config.P.rKeyedAbsorb ∧
    (∀ tx ∈ aeadNew [] ++ aeadOpen [2#8] [] [3#8, 4#8] 1, tx.instr.wf = true) ∧
    ∀ expected : Bytes, (∃ tag, expected ≠ tag) ∧ ∃ tag, expected = tag :=
  ⟨(descriptor_bounds Config.P).2.2.1.1, by decide, fun e => ⟨⟨0#8 :: e, by simp⟩, e, rfl⟩⟩

end Sys2Proof.Tests
end

section
/-! PROOFS of the family 10_state: what one step can do, what every command leaves of the invariant of 10 R31, and the
obligations on reset, waiting and the life of a valid engine. -/

namespace Sys2Proof.Machine

/-! ### What one step can do -/

/-- With no act of the host left the engine waits (10 R32). -/
theorem step_idle {s : State} (h : s.cmd = []) : step s = .next s := by
  simp only [step, hostStep, h]

/-- With an act of the host left, the step takes it from `CMD` and processes it. -/
theorem step_input {s : State} {a : HostInput} {rest : List HostInput} (h : s.cmd = a :: rest) :
    step s = processInput a (s.setCmd rest) := by
  simp only [step, hostStep, h]

theorem processCommand_illegal {c : Word} {e : Illegal} (d : decode c = .illegal e) (s : State) :
    processCommand c s = .next (illegalCommand s) := by
  simp only [processCommand, d]

theorem processCommand_instr {c : Word} {i : Instr} (d : decode c = .instr i) (s : State) :
    processCommand c s = exec i s := by
  simp only [processCommand, d]

/-- Everything that follows from a next state of `processCommand`: the word was illegal and got its answer, or it was a
command that ran (60 R155). -/
theorem processCommand_next {c : Word} {s t : State} (h : processCommand c s = .next t) :
    (∃ e, decode c = .illegal e ∧ t = illegalCommand s) ∨ ∃ i, decode c = .instr i ∧ exec i s = .next t := by
  cases d : decode c with
  | illegal e =>
    rw [processCommand_illegal d] at h
    exact .inl ⟨e, rfl, by simpa using h.symm⟩
  | instr i =>
    rw [processCommand_instr d] at h
    exact .inr ⟨i, rfl, h⟩

/-- Everything a step that answers a next state can have done: wait, answer an illegal word, run a command, reset, reset
during a command (20 R47, 60 R155, 70 R170, R171). -/
theorem step_next {s t : State} (h : step s = .next t) :
    (s.cmd = [] ∧ t = s) ∨
    ∃ a rest, s.cmd = a :: rest ∧
      ((∃ c e, a = .command c ∧ decode c = .illegal e ∧ t = illegalCommand (s.setCmd rest)) ∨
       (∃ c i, a = .command c ∧ decode c = .instr i ∧ exec i (s.setCmd rest) = .next t) ∨
       (a = .reset ∧ t = assertReset Config.P (s.setCmd rest)) ∨
       (∃ c, a = .resetDuring c ∧ t = abortCommand c (s.setCmd rest))) := by
  cases hc : s.cmd with
  | nil =>
    rw [step_idle hc] at h
    exact .inl ⟨rfl, by simpa using h.symm⟩
  | cons a rest =>
    rw [step_input hc] at h
    refine .inr ⟨a, rest, rfl, ?_⟩
    cases a with
    | command c =>
      rcases processCommand_next h with ⟨e, d, ht⟩ | ⟨i, d, ht⟩
      · exact .inl ⟨c, e, rfl, d, ht⟩
      · exact .inr (.inl ⟨c, i, rfl, d, ht⟩)
    | reset =>
      simp only [processInput, Host.Outcome.next.injEq] at h
      exact .inr (.inr (.inl ⟨rfl, h.symm⟩))
    | resetDuring c =>
      simp only [processInput, Host.Outcome.next.injEq] at h
      exact .inr (.inr (.inr ⟨c, rfl, h.symm⟩))

/-! ### The invariant along each act of the host -/

/-- A reset during a command ends in the reset state, whatever was delivered before it (70 R171). -/
theorem abortInstr_zeroised (i : Instr) (s : State) : Zeroised Config.P (abortInstr i s) :=
  ⟨rfl, rfl, rfl, rfl, rfl, rfl, rfl⟩

theorem abortCommand_zeroised (c : Word) (s : State) : Zeroised Config.P (abortCommand c s) := by
  unfold abortCommand
  split
  · exact zeroise_zeroised Config.P s
  · exact abortInstr_zeroised _ s

/-- A constructor leaves a valid engine with the rates of its mode (42 R111, R112). -/
theorem construct_inv (P : Descriptor) (m : Mode) (s : State) :
    Inv P (construct m (ratesOf P m).1 (ratesOf P m).2 (zeroise P s)) where
  width := zeroise_width P s
  scratch := rfl
  noInstance := nofun
  rates := fun _ => rfl

/-- The keyed constructor keeps the invariant, whether the key fits or not (42 R112, 60 R151). -/
theorem initKeyedRule_inv {P : Descriptor} {k d c : Nat} {D : Bytes} (l : D.length = k + d + c) (s : State) :
    Inv P (initKeyedRule P k d c D s).state := by
  unfold initKeyedRule
  split
  · exact zeroise_inv P s
  · have a := (absorbKey_duplexed (P := P) (D := D)
      (s := construct .keyed P.rKeyedAbsorb P.rKeyedSqueeze (zeroise P s)) l (by omega) rfl).1
    exact a.inv (construct_inv P .keyed s) rfl

/-- The rule of an operation command that passed its checks is made of Downs and Ups (41 R90). -/
theorem operation_duplexed {i : Instr} {X : Bytes} {s : State} (h : Inv Config.P s) (o : IsOperation i)
    (hv : s.valid = true) (hm : IsKeyedOnly i → s.mode = .keyed) (l : X.length = payloadLen i) :
    Duplexed Config.P s (ruleOf i X s).state (callsOf Config.P s i) := by
  obtain ⟨Y, t, e, d, -, -⟩ := operation_rule h hv ((needsInstance_iff i).mpr o)
    (fun k => hm ((needsKeyed_iff i).mp k)) l
  rw [e]
  exact d

/-- The rule of a command that passed its checks keeps the invariant. -/
theorem ruleOf_inv {i : Instr} {X : Bytes} {s : State} (h : Inv Config.P s)
    (hv : IsOperation i → s.valid = true) (hm : IsKeyedOnly i → s.mode = .keyed) (l : X.length = payloadLen i) :
    Inv Config.P (ruleOf i X s).state := by
  by_cases o : IsOperation i
  · exact (operation_duplexed h o (hv o) hm l).inv h (hv o)
  · cases i with
    | initHash => exact construct_inv Config.P .hash s
    | initKeyed k d c => exact initKeyedRule_inv l s
    | zeroize => exact zeroise_inv Config.P s
    | absorb | encrypt | decrypt | squeeze | squeezeKey | ratchet => simp [IsOperation] at o

/-- Taking the payload off `DIN` keeps the invariant. -/
theorem Inv.setDin {P : Descriptor} {s : State} (h : Inv P s) (x : Bytes) : Inv P (s.setDin x) :=
  h.of_same (SameEngine.refl s)

/-- Taking an act of the host off `CMD` keeps the invariant. -/
theorem Inv.setCmd {P : Descriptor} {s : State} (h : Inv P s) (x : List HostInput) : Inv P (s.setCmd x) :=
  h.of_same (SameEngine.refl s)

/-- The end of a command keeps the invariant. -/
theorem Inv.finish {P : Descriptor} {r : Reply} (h : Inv P r.state) : Inv P r.finish := h.of_same (finish_same r)

/-- Every command keeps the invariant of 10 R31, however it ends. -/
theorem exec_keeps_inv {i : Instr} {s t : State} (h : Inv Config.P s) (e : exec i s = .next t) : Inv Config.P t := by
  obtain ⟨p, r, rfl, -, hr⟩ := exec_next e
  refine Inv.finish ?_
  rcases hr with ⟨-, -, rfl⟩ | ⟨-, -, -, rfl⟩ | ⟨-, rfl⟩ | ⟨hv, hm, -, -, rfl⟩
  · exact h.setDin _
  · exact h.setDin _
  · exact zeroise_inv Config.P _
  · exact ruleOf_inv (h.setDin _) hv hm (List.length_take_of_le p)

/-- Settles O43: by what a step can have done, each of its acts keeps the invariant. -/
theorem stepKeepsInv : Obligations.StepKeepsInv := by
  intro s t h e
  rcases step_next e with ⟨-, rfl⟩ | ⟨a, rest, -, ha⟩
  · exact h
  · rcases ha with ⟨_, _, -, -, rfl⟩ | ⟨_, i, -, -, ht⟩ | ⟨-, rfl⟩ | ⟨c, -, rfl⟩
    · exact Inv.finish (r := raise .errIllegal (s.setCmd rest)) (h.setCmd rest)
    · exact exec_keeps_inv (h.setCmd rest) ht
    · exact zeroise_inv Config.P _
    · exact (abortCommand_zeroised c _).inv

/-! ### The life of a valid engine -/

/-- An operation command, whether it completes or ends in an error, takes its payload, makes Downs and Ups and answers
(10 R30, 60 R156). -/
theorem operation_next {i : Instr} {s t : State} (h : Inv Config.P s) (o : IsOperation i) (e : exec i s = .next t) :
    ∃ (r : Reply) (k : Nat), t = r.finish ∧
      Duplexed Config.P (s.setDin (s.din.drop (payloadLen i))) r.state k := by
  obtain ⟨p, r, rfl, -, hr⟩ := exec_next e
  rcases hr with ⟨-, -, rfl⟩ | ⟨-, -, -, rfl⟩ | ⟨⟨_, _, _, rfl, -⟩, -⟩ | ⟨hv, hm, -, -, rfl⟩
  · exact ⟨_, 0, rfl, Duplexed.refl _⟩
  · exact ⟨_, 0, rfl, Duplexed.refl _⟩
  · simp [IsOperation] at o
  · exact ⟨_, _, rfl, operation_duplexed (h.setDin _) o (hv o) hm (List.length_take_of_le p)⟩

/-- Settles O22: Downs and Ups leave everything but `buf`, `phase` and the `PERM` stream, and the invariant has `scratch`
zero before them. -/
theorem operationsKeepInstance : Obligations.OperationsKeepInstance := by
  intro i s t h o e
  obtain ⟨r, k, rfl, d⟩ := operation_next h o e
  exact ⟨d.mode, d.absorbRate, d.squeezeRate, d.valid, d.scratch.trans h.scratch, d.cmd, d.freeCount⟩

/-! ### Waiting and reset -/

/-- Settles O7. -/
theorem idleEngineWaits : Obligations.IdleEngineWaits := fun _ h => step_idle h

/-- Settles O15: the reset state is zeroised. -/
theorem resetState : Obligations.ResetState := resetOf_zeroised Config.P

/-- Settles O16: asserting `RST` is `Zeroise()`, in one record. -/
theorem resetStep : Obligations.ResetStep := by
  intro s rest h
  rw [step_input h]
  exact congrArg Host.Outcome.next (zeroise_eq Config.P (s.setCmd rest))

/-- Settles O42: a zeroised state has the invariant. -/
theorem invAtReset : Obligations.InvAtReset := (resetOf_zeroised Config.P).inv

end Sys2Proof.Machine
end

section
/-! PROOFS of the family 20_memory: what the ports carry. No port takes back what it carried and every string on `PERM` has
`W` bytes; the output of the squeeze commands and of ENCRYPT and DECRYPT is a stream, its front the same for every length. -/

namespace Sys2Proof.Machine

/-- Settles O6: a step takes the word from `CMD` and runs what it decodes to. -/
theorem stepRunsDecodedCommand : Obligations.StepRunsDecodedCommand :=
  fun _ _ _ _ hc hd => (step_input hc).trans (processCommand_instr hd _)

/-! ### Strings sent on `PERM` -/

/-- From `s` to `t` only strings of `W` bytes were sent on `PERM`, after what it had carried before (40 R82). -/
def SendsWidth (P : Descriptor) (s t : State) : Prop :=
  ∃ c, t.perm = s.perm ++ c ∧ ∀ b ∈ c, b.length = P.w

theorem SendsWidth.of_perm_eq {P : Descriptor} {s t : State} (h : t.perm = s.perm) : SendsWidth P s t :=
  ⟨[], by simp [h], nofun⟩

theorem Duplexed.sendsWidth {P : Descriptor} {s t : State} {k : Nat} (d : Duplexed P s t k) (w : s.BufWidth P) :
    SendsWidth P s t :=
  let ⟨c, hc, _, hw⟩ := d.calls
  ⟨c, hc, hw w⟩

theorem SendsWidth.permWidths {P : Descriptor} {s t : State} (h : SendsWidth P s t) (hs : PermWidths P s) :
    PermWidths P t := by
  obtain ⟨c, hc, hw⟩ := h
  intro b hb
  rw [hc, List.mem_append] at hb
  exact hb.elim (hs b) (hw b)

theorem initKeyedRule_sendsWidth {P : Descriptor} {k d c : Nat} {D : Bytes} (l : D.length = k + d + c) (s : State) :
    SendsWidth P s (initKeyedRule P k d c D s).state := by
  unfold initKeyedRule
  split
  · exact .of_perm_eq rfl
  · exact (absorbKey_duplexed (P := P) (s := construct .keyed P.rKeyedAbsorb P.rKeyedSqueeze (zeroise P s)) l
      (by omega) rfl).1.sendsWidth (zeroise_width P s)

/-- The rule of a command that passed its checks sends strings of `W` bytes only. -/
theorem ruleOf_sendsWidth {i : Instr} {X : Bytes} {s : State} (h : Inv Config.P s)
    (hv : IsOperation i → s.valid = true) (hm : IsKeyedOnly i → s.mode = .keyed) (l : X.length = payloadLen i) :
    SendsWidth Config.P s (ruleOf i X s).state := by
  by_cases o : IsOperation i
  · exact (operation_duplexed h o (hv o) hm l).sendsWidth h.width
  · cases i with
    | initHash | zeroize => exact .of_perm_eq rfl
    | initKeyed k d c => exact initKeyedRule_sendsWidth l s
    | absorb | encrypt | decrypt | squeeze | squeezeKey | ratchet => simp [IsOperation] at o

/-- Every command sends strings of `W` bytes only, however it ends. -/
theorem exec_sendsWidth {i : Instr} {s t : State} (h : Inv Config.P s) (e : exec i s = .next t) :
    SendsWidth Config.P s t := by
  obtain ⟨p, r, rfl, -, hr⟩ := exec_next e
  rcases hr with ⟨-, -, rfl⟩ | ⟨-, -, -, rfl⟩ | ⟨-, rfl⟩ | ⟨hv, hm, -, -, rfl⟩
  · exact .of_perm_eq rfl
  · exact .of_perm_eq rfl
  · exact .of_perm_eq rfl
  · exact ruleOf_sendsWidth (h.setDin _) hv hm (List.length_take_of_le p)

/-- So does the run an aborted command would have made (70 R171). -/
theorem fullRun_sendsWidth {s : State} (h : Inv Config.P s) (i : Instr) : SendsWidth Config.P s (fullRun i s) := by
  unfold fullRun
  dsimp only
  split
  case h_1 e => exact (exec_sendsWidth (h.setDin _) e :)
  case h_2 | h_3 => exact .of_perm_eq rfl

/-! ### What one step does to the ports -/

/-- Every port goes on from where it was: the outputs get something appended, `RSP` at most one word, `DIN` loses a front
(20 R41). -/
structure StreamsGrow (P : Descriptor) (s t : State) : Prop where
  perm : SendsWidth P s t
  dout : ∃ d, t.dout = s.dout ++ d
  rsp : ∃ r, t.rsp = s.rsp ++ r ∧ r.length ≤ 1
  din : ∃ n, t.din = s.din.drop n

theorem StreamsGrow.of_eq {P : Descriptor} {s t : State} (hp : t.perm = s.perm) (ho : t.dout = s.dout)
    (hr : t.rsp = s.rsp) (hi : t.din = s.din) : StreamsGrow P s t :=
  ⟨.of_perm_eq hp, ⟨[], by simp [ho]⟩, ⟨[], by simp [hr]⟩, ⟨0, by simp [hi]⟩⟩

theorem illegalCommand_streamsGrow (P : Descriptor) (s : State) : StreamsGrow P s (illegalCommand s) :=
  ⟨.of_perm_eq rfl, ⟨[], rfl⟩, ⟨[_], rfl, Nat.le_refl 1⟩, ⟨0, rfl⟩⟩

/-- A command takes its payload, appends its output and its one response word. -/
theorem exec_streamsGrow {i : Instr} {s t : State} (h : Inv Config.P s) (e : exec i s = .next t) :
    StreamsGrow Config.P s t := by
  have hp := exec_sendsWidth h e
  obtain ⟨-, r, rfl, o, -⟩ := exec_next e
  exact ⟨hp, ⟨r.out, congrArg (· ++ r.out) o.dout⟩, ⟨[_], congrArg (· ++ [_]) o.rsp, Nat.le_refl 1⟩, ⟨_, o.din⟩⟩

/-- A reset during a command delivers some of its output, makes some of its calls, takes some of its payload, and gives no
response (70 R171). -/
theorem abortInstr_streamsGrow {s : State} (h : Inv Config.P s) (i : Instr) :
    StreamsGrow Config.P s (abortInstr i s) := by
  obtain ⟨c, hc, hw⟩ := fullRun_sendsWidth h i
  have calls : (fullRun i s).perm.drop s.perm.length = c := by rw [hc, List.drop_left]
  refine ⟨⟨_, rfl, fun b hb => hw b ?_⟩, ⟨_, rfl⟩, ⟨[], (List.append_nil _).symm, Nat.zero_le 1⟩, ⟨_, rfl⟩⟩
  rw [← calls]
  exact List.mem_of_mem_take hb

theorem abortCommand_streamsGrow {s : State} (h : Inv Config.P s) (c : Word) :
    StreamsGrow Config.P s (abortCommand c s) := by
  unfold abortCommand
  split
  · exact .of_eq rfl rfl rfl rfl
  · exact abortInstr_streamsGrow h _

/-- Taking an act of the host off `CMD` changes no other port. -/
theorem StreamsGrow.of_setCmd {P : Descriptor} {s t : State} {l : List HostInput}
    (g : StreamsGrow P (s.setCmd l) t) : StreamsGrow P s t := ⟨g.perm, g.dout, g.rsp, g.din⟩

theorem step_streamsGrow {s t : State} (h : Inv Config.P s) (e : step s = .next t) : StreamsGrow Config.P s t := by
  rcases step_next e with ⟨-, rfl⟩ | ⟨a, rest, -, ha⟩
  · exact .of_eq rfl rfl rfl rfl
  · have h' := h.setCmd rest
    rcases ha with ⟨_, _, -, -, rfl⟩ | ⟨_, i, -, -, ht⟩ | ⟨-, rfl⟩ | ⟨c, -, rfl⟩
    · exact (illegalCommand_streamsGrow _ _).of_setCmd
    · exact (exec_streamsGrow h' ht).of_setCmd
    · exact .of_eq rfl rfl rfl rfl
    · exact (abortCommand_streamsGrow h' c).of_setCmd

/-- Settles O44: every act of a step makes the ports go on from where they were. -/
theorem stepKeepsStreams : Obligations.StepKeepsStreams := by
  intro s t h hs e
  have g := step_streamsGrow h e
  obtain ⟨c, hc, -⟩ := g.perm
  exact ⟨g.perm.permWidths hs, ⟨c, hc⟩, g.dout, g.rsp, g.din⟩

/-! ### The output of a command -/

/-- A reply adds nothing to `DOUT` but its output bytes. -/
theorem replyOf_dout (i : Instr) (X : Bytes) (s : State) : (replyOf i (ruleOf i) X s).state.dout = s.dout := by
  rcases replyOf_cases i (ruleOf i) X s with ⟨-, -, e⟩ | ⟨-, -, e⟩ | ⟨-, -, e⟩
  · rw [e]; rfl
  · rw [e]; rfl
  · rw [e]; exact (ruleOf_status i X s).1.dout

theorem exec_dout {i : Instr} {s t : State} (e : exec i s = .next t) :
    t.dout = s.dout ++
      (replyOf i (ruleOf i) (s.din.take (payloadLen i)) (s.setDin (s.din.drop (payloadLen i)))).out := by
  rw [exec_eq] at e
  obtain ⟨-, rfl⟩ := runCommand_next e
  exact congrArg (· ++ _) (replyOf_dout i _ _)

/-- Two commands that make the same checks on the same engine: if the output of the one's rule starts that of the other's,
then so it does for what they deliver, since a command that fails a check delivers nothing (60 R156). -/
theorem exec_dout_prefix {i j : Instr} {s s' t u : State} (ht : exec i s = .next t) (hu : exec j s' = .next u)
    (same : SameEngine s s') (hd : s'.dout = s.dout)
    (hI : needsInstance i = needsInstance j) (hK : needsKeyed i = needsKeyed j)
    (out : (needsInstance i = true → s.valid = true) →
      (ruleOf i (s.din.take (payloadLen i)) (s.setDin (s.din.drop (payloadLen i)))).out <+:
        (ruleOf j (s'.din.take (payloadLen j)) (s'.setDin (s'.din.drop (payloadLen j)))).out) :
    t.dout <+: u.dout := by
  obtain ⟨-, -, mode, -, -, valid, -⟩ := same
  rw [exec_dout ht, exec_dout hu, hd, List.prefix_append_right_inj]
  rcases replyOf_cases i (ruleOf i) (s.din.take (payloadLen i)) (s.setDin (s.din.drop (payloadLen i)))
    with ⟨-, -, e⟩ | ⟨-, -, e⟩ | ⟨hv, hm, e⟩
  · rw [e]; exact List.nil_prefix
  · rw [e]; exact List.nil_prefix
  · rw [e, replyOf_rule (fun n => valid ▸ hv (hI ▸ n)) (fun n => mode ▸ hm (hK ▸ n))]
    exact out hv

/-! ### The output of SqueezeAny and of Crypt is a stream -/

/-- A shorter output of one Up is the front of a longer one (41 R95). -/
theorem up_bytes_prefix (P : Descriptor) {m n : Nat} (h : m ≤ n) (cu : Byte) (s : State) :
    (up P m cu s).1 <+: (up P n cu s).1 := by
  rw [up_bytes, up_bytes]
  exact List.take_prefix_take_left h

/-- A shorter output of SqueezeAny is the front of a longer one, block by block (41 R99). -/
theorem squeezeAny_prefix (P : Descriptor) {s : State} (hr : 0 < s.squeezeRate) {m n : Nat} (h : m ≤ n) (cu : Byte) :
    (squeezeAny P m cu s).1 <+: (squeezeAny P n cu s).1 := by
  generalize hR : s.squeezeRate = R at hr
  induction m using length_induction hr generalizing n cu s with
  | one m hm =>
    rw [squeezeAny_one (by omega)]
    rcases le_or_gt n R with hn | hn
    · rw [squeezeAny_one (by omega)]
      exact up_bytes_prefix P h cu _
    · rw [squeezeAny_more (by omega) (by omega), squeezeAny_one le_rfl]
      exact (up_bytes_prefix P (by omega) cu _).trans (List.prefix_append _ _)
  | more m hm ih =>
    have hs : 0 < s.squeezeRate := by omega
    have d := (squeezeAny_spec (P := P) hs R cu).2.1
    rw [squeezeAny_more hs (by omega), squeezeAny_more (l := n) hs (by omega)]
    simp only [List.prefix_append_right_inj, hR]
    exact ih (by omega) _ (d.squeezeRate.trans hR)

/-- The first chunk of a string is its first `r` bytes, all of it if it has fewer (41 R91). -/
theorem split_eq_take_cons {r : Nat} (hr : 0 < r) (X : Bytes) : ∃ l, split X r = X.take r :: l := by
  rcases le_or_gt X.length r with h | h
  · exact ⟨[], by rw [split_of_le h, List.take_of_length_le h]⟩
  · exact ⟨_, split_of_lt hr h⟩

/-- The output on the front of a chunk is the front of the output on the chunk (41 R101). -/
theorem cryptChunk_prefix (P : Descriptor) (d : Bool) {c e : Bytes} (h : c <+: e) (s : State) :
    (cryptChunk P d c s).1 <+: (cryptChunk P d e s).1 := by
  have key : (cryptChunk P d c s).1 = (cryptChunk P d e s).1.take c.length := by
    simp only [cryptChunk, xorBytes, up_bytes, List.take_zipWith, List.take_take, Nat.min_eq_left h.length_le,
      ← List.prefix_iff_eq_take.mp h]
  rw [key]
  exact List.take_prefix _ _

/-- The loop of Crypt gives on a longer string the output on a shorter one, then more (41 R101). -/
theorem cryptChunks_prefix (P : Descriptor) (d : Bool) {r : Nat} (hr : 0 < r) (X Y : Bytes) (s : State) :
    (cryptChunks P d (split X r) s).1 <+: (cryptChunks P d (split (X ++ Y) r) s).1 := by
  induction X using block_induction hr generalizing s with
  | one X h =>
    obtain ⟨l, hl⟩ := split_eq_take_cons hr (X ++ Y)
    have front : X <+: (X ++ Y).take r := List.prefix_take_iff.mpr ⟨List.prefix_append X Y, h⟩
    rw [split_of_le h, hl]
    simp only [cryptChunks, List.append_nil]
    exact (cryptChunk_prefix P d front s).trans (List.prefix_append _ _)
  | more X h ih =>
    rw [split_of_lt hr h, split_of_lt (X := X ++ Y) hr (by rw [List.length_append]; omega),
      List.take_append_of_le_length (by omega), List.drop_append_of_le_length (by omega)]
    simp only [cryptChunks, List.prefix_append_right_inj]
    exact ih _

/-- The output of Crypt depends on the engine, not on its ports, and starts with that on a shorter string (20 R52). -/
theorem crypt_prefix {P : Descriptor} {s t : State} (same : SameEngine s t) (d : Bool) (X Y : Bytes) :
    (crypt P X d s).1 <+: (crypt P (X ++ Y) d t).1 := by
  rw [(same.crypt (P := P) X d).1]
  exact cryptChunks_prefix P d (descriptor_rKeyedSqueeze P).1 X Y _

/-- Settles O34: both commands check the same, and SqueezeAny's output is a stream. -/
theorem squeezeOutputIsStream : Obligations.SqueezeOutputIsStream := by
  intro s t u m n i j h le hij ht hu
  have out := fun (cu : Byte) (v : s.valid = true) =>
    squeezeAny_prefix Config.P (s := s.setDin s.din) (h.rate_bounds v).2.1 le cu
  suffices p : t.dout <+: u.dout from p.imp fun _ => Eq.symm
  rcases hij with ⟨rfl, rfl⟩ | ⟨rfl, rfl⟩
  · exact exec_dout_prefix ht hu (.refl s) rfl rfl rfl (fun v => out 0x40#8 (v rfl))
  · exact exec_dout_prefix ht hu (.refl s) rfl rfl rfl (fun v => out 0x20#8 (v rfl))

/-- Settles O39: both commands check the same, and Crypt's output is a stream. -/
theorem cryptOutputIsStream : Obligations.CryptOutputIsStream := by
  rintro s s' t u X Y rest rest' d h rfl hd ht hu
  have out : ∀ D D', (crypt Config.P (s.din.take X.length) d (s.setDin D)).1 <+:
      (crypt Config.P ((X ++ Y ++ rest').take (X ++ Y).length) d (s.setDin D')).1 := fun D D' => by
    have same : SameEngine (s.setDin D) (s.setDin D') := .refl s
    rw [hd, List.take_left, List.take_left]
    exact crypt_prefix same d X Y
  suffices p : t.dout <+: u.dout from p.imp fun _ => Eq.symm
  cases d with
  | false => exact exec_dout_prefix ht hu (.refl s) rfl rfl rfl (fun _ => out _ _)
  | true => exact exec_dout_prefix ht hu (.refl s) rfl rfl rfl (fun _ => out _ _)

end Sys2Proof.Machine
end

section
/-! PROOFS of the family 30_encoding: the decoder against the encoder and the opcode map of 30 R63, the illegal words of
30 R67, and the framing, the output and the response of every command. -/

namespace Sys2Proof.Machine

/-! ### The fields of a command -/

/-- `OPC` of a command (30 R63). -/
def opcode : Instr → Nat
  | .initHash => 0x1
  | .initKeyed _ _ _ => 0x2
  | .absorb _ => 0x3
  | .encrypt _ => 0x4
  | .decrypt _ => 0x5
  | .squeeze _ => 0x6
  | .squeezeKey _ => 0x7
  | .ratchet => 0x8
  | .zeroize => 0x9

/-- `ARG` of a command (30 R61). -/
def argument : Instr → Nat
  | .initHash => 0
  | .initKeyed klen idlen clen => keyedArg klen idlen clen
  | .absorb len => len
  | .encrypt len => len
  | .decrypt len => len
  | .squeeze len => len
  | .squeezeKey len => len
  | .ratchet => 0
  | .zeroize => 0

/-- A command of format `N`, whose `ARG` must be 0 (30 R61): those with the opcodes 1, 8 and 9. -/
abbrev FormatN (i : Instr) : Prop := opcode i = 0x1 ∨ opcode i = 0x8 ∨ opcode i = 0x9

/-- The word of a command is made of these fields (30 R71). -/
theorem encode_eq (i : Instr) : encode i = commandWord (opcode i) (argument i) := by cases i <;> rfl

theorem opcode_bounds (i : Instr) : 1 ≤ opcode i ∧ opcode i ≤ 9 := by cases i <;> simp [opcode]

/-- Each of the opcodes 1 to 9 is that of a command (30 R63). -/
theorem exists_opcode {n : Nat} (h : 1 ≤ n) (h' : n ≤ 9) : ∃ i, opcode i = n := by
  interval_cases n
  exacts [⟨.initHash, rfl⟩, ⟨.initKeyed 0 0 0, rfl⟩, ⟨.absorb 0, rfl⟩, ⟨.encrypt 0, rfl⟩, ⟨.decrypt 0, rfl⟩,
    ⟨.squeeze 0, rfl⟩, ⟨.squeezeKey 0, rfl⟩, ⟨.ratchet, rfl⟩, ⟨.zeroize, rfl⟩]

theorem argument_formatN {i : Instr} (h : FormatN i) : argument i = 0 := by
  cases i with
  | initHash | ratchet | zeroize => rfl
  | initKeyed | absorb | encrypt | decrypt | squeeze | squeezeKey => simp [FormatN, opcode] at h

theorem lenFits_iff {n : Nat} : lenFits n = true ↔ n < 2 ^ 24 := by
  rw [lenFits, decide_eq_true_eq, Config.lmax]; omega

theorem klenFits_iff {n : Nat} : klenFits n = true ↔ n < 256 := by
  rw [klenFits, decide_eq_true_eq, Config.kmax]; omega

theorem initKeyed_wf_iff {k d n : Nat} : (Instr.initKeyed k d n).wf = true ↔ k < 256 ∧ d < 256 ∧ n < 256 := by
  simp only [Instr.wf, Bool.and_eq_true, klenFits_iff, and_assoc]

/-- The `ARG` of a well-formed command fits its field (30 R71). -/
theorem argument_lt {i : Instr} (h : i.wf = true) : argument i < 2 ^ 24 := by
  cases i with
  | initHash | ratchet | zeroize => simp [argument]
  | initKeyed k d n =>
    obtain ⟨hk, hd, hn⟩ := initKeyed_wf_iff.mp h
    exact keyedArg_lt (by omega) (by omega) (by omega)
  | absorb | encrypt | decrypt | squeeze | squeezeKey => exact lenFits_iff.mp h

/-- `ARG` is made of the three fields of format `K` (30 R61). -/
theorem keyedArg_fields (c : Word) : keyedArg (klenOf c) (idlenOf c) (clenOf c) = argOf c := by
  rw [keyedArg, klenOf_eq, idlenOf_eq, clenOf_eq]; omega

/-- The fields of format `K` read back what the encoder put into `ARG` (30 R61, R71). -/
theorem fields_of_keyedArg {c : Word} {k d n : Nat} (h : argOf c = keyedArg k d n) (hk : k < 256) (hd : d < 256) :
    klenOf c = k ∧ idlenOf c = d ∧ clenOf c = n := by
  rw [klenOf_eq, idlenOf_eq, clenOf_eq, h, keyedArg]; omega

theorem keyedFields_wf (c : Word) : (Instr.initKeyed (klenOf c) (idlenOf c) (clenOf c)).wf = true :=
  initKeyed_wf_iff.mpr ⟨BitVec.isLt _, BitVec.isLt _, BitVec.isLt _⟩

/-! ### The decoder against the encoder -/

theorem decodeNoArg_eq_instr_iff {c : Word} {i j : Instr} :
    decodeNoArg c j = .instr i ↔ argOf c = 0 ∧ j = i := by
  unfold decodeNoArg; split <;> simp [*]

/-- What it takes for a word to decode to a command: `RSV` is zero, `OPC` and `ARG` are the command's, and the command is
well-formed (30 R61, R69). -/
theorem decode_eq_instr_iff {c : Word} {i : Instr} :
    decode c = .instr i ↔ rsvOf c = 0 ∧ opcOf c = opcode i ∧ argOf c = argument i ∧ i.wf = true := by
  constructor
  · intro h
    unfold decode at h
    split at h
    case isTrue => cases h
    case isFalse hr =>
    refine ⟨not_not.mp hr, ?_⟩
    split at h
    case h_1 o | h_8 o | h_9 o =>
      obtain ⟨ha, rfl⟩ := decodeNoArg_eq_instr_iff.mp h
      exact ⟨o, ha, rfl⟩
    case h_2 o =>
      cases h
      exact ⟨o, (keyedArg_fields c).symm, keyedFields_wf c⟩
    case h_3 o | h_4 o | h_5 o | h_6 o | h_7 o =>
      cases h
      exact ⟨o, rfl, lenFits_iff.mpr (argOf_lt c)⟩
    case h_10 => cases h
  · rintro ⟨hr, ho, ha, hw⟩
    cases i with
    | initHash | ratchet | zeroize => simp [decode, hr, ho, opcode, decodeNoArg_eq_instr_iff, ha, argument]
    | initKeyed k d n =>
      obtain ⟨hk, hd, -⟩ := initKeyed_wf_iff.mp hw
      simp [decode, hr, ho, opcode, fields_of_keyedArg ha hk hd]
    | absorb | encrypt | decrypt | squeeze | squeezeKey => simp [decode, hr, ho, opcode, ha, argument]

/-- Settles O1: the word the encoder makes of well-formed operands has the fields the decoder asks for. -/
theorem decodeOfEncode : Obligations.DecodeOfEncode := by
  intro i h
  have ho : opcode i < 16 := (opcode_bounds i).2.trans_lt (by decide)
  have ha := argument_lt h
  rw [encode_eq]
  exact decode_eq_instr_iff.mpr ⟨commandWord_rsv ho ha, commandWord_opc ho ha, commandWord_arg ho ha, h⟩

/-- Settles O2: a word with `RSV = 0` is made of its `OPC` and `ARG`. -/
theorem encodeOfDecode : Obligations.EncodeOfDecode := by
  intro c i h
  obtain ⟨hr, ho, ha, hw⟩ := decode_eq_instr_iff.mp h
  refine ⟨hw, ?_⟩
  rw [encode_eq, ← ho, ← ha]
  exact (eq_commandWord hr).symm

/-- Settles O4. -/
theorem specWordsDecode : Obligations.SpecWordsDecode := by
  unfold Obligations.SpecWordsDecode
  decide


/-! ### The opcode map -/

/-- The row of a command: `OPC` in bits 31:28, and the mask over `ARG` too in format `N` (30 R61, R63). -/
def rowOf (i : Instr) : OpcodeRow :=
  ⟨mnemonicOf i, commandWord (opcode i) 0, if FormatN i then 0xFFFFFFFF#32 else 0xFF000000#32⟩

/-- One command of each row of 30 R63. -/
def rowCommands : List Instr :=
  [.initHash, .initKeyed 0 0 0, .absorb 0, .encrypt 0, .decrypt 0, .squeeze 0, .squeezeKey 0, .ratchet, .zeroize]

/-- The opcode map is the rows of the commands (30 R63). -/
theorem opcodeTable_eq : opcodeTable = rowCommands.map rowOf := by decide

theorem rowOf_mem (i : Instr) : rowOf i ∈ opcodeTable := by
  rw [opcodeTable_eq, List.mem_map]
  cases i <;> simp [rowCommands, rowOf, mnemonicOf, FormatN, opcode]

theorem exists_rowOf {row : OpcodeRow} (h : row ∈ opcodeTable) : ∃ i, rowOf i = row := by
  rw [opcodeTable_eq, List.mem_map] at h
  exact h.imp fun _ => And.right

/-- The mask `0xFF000000` keeps bits 31:24 (30 R63). -/
theorem and_highByteMask (c : Word) : c &&& 0xFF000000#32 = c >>> 24 <<< 24 :=
  (BitVec.shiftLeft_ushiftRight (x := c) (n := 24)).symm

/-- Bits 31:24 are those of an opcode iff `OPC` is that opcode and `RSV` is zero (30 R61). -/
theorem and_highByteMask_eq_iff {c : Word} {n : Nat} (hn : n < 16) :
    c &&& 0xFF000000#32 = commandWord n 0 ↔ rsvOf c = 0 ∧ opcOf c = n := by
  have := c.isLt
  rw [and_highByteMask, ← BitVec.toNat_inj, commandWord_toNat hn (by decide), BitVec.toNat_shiftLeft,
    BitVec.toNat_ushiftRight, Nat.shiftLeft_eq, Nat.shiftRight_eq_div_pow, rsvOf_eq, opcOf_eq]
  omega

theorem eq_commandWord_zero_iff {c : Word} {n : Nat} (hn : n < 16) :
    c = commandWord n 0 ↔ rsvOf c = 0 ∧ opcOf c = n ∧ argOf c = 0 := by
  constructor
  · rintro rfl
    exact ⟨commandWord_rsv hn (by decide), commandWord_opc hn (by decide), commandWord_arg hn (by decide)⟩
  · rintro ⟨hr, ho, ha⟩
    rw [eq_commandWord hr, ho, ha]

/-- What it takes for a word to select a command's row (30 R61, R63). -/
theorem rowOf_selects_iff {c : Word} {i : Instr} :
    (rowOf i).selects c = true ↔ rsvOf c = 0 ∧ opcOf c = opcode i ∧ (FormatN i → argOf c = 0) := by
  have ho : opcode i < 16 := (opcode_bounds i).2.trans_lt (by decide)
  rw [OpcodeRow.selects, beq_iff_eq]
  by_cases h : FormatN i
  · have mask : c &&& 0xFFFFFFFF#32 = c := BitVec.and_allOnes
    simp only [rowOf, h, if_true, mask, eq_commandWord_zero_iff ho, forall_const]
  · simp only [rowOf, h, if_false, and_highByteMask_eq_iff ho, false_imp_iff, and_true]

/-- A word selects the row of the command it decodes to (30 R63). -/
theorem selects_of_decode {c : Word} {i : Instr} (h : decode c = .instr i) : (rowOf i).selects c = true := by
  obtain ⟨hr, ho, ha, -⟩ := decode_eq_instr_iff.mp h
  exact rowOf_selects_iff.mpr ⟨hr, ho, fun n => ha.trans (argument_formatN n)⟩

/-- A word that selects a row decodes to a command of that row, its lengths those in the word's fields (30 R62, R63). -/
theorem decode_of_selects {c : Word} {i : Instr} (h : (rowOf i).selects c = true) :
    ∃ j, decode c = .instr j ∧ rowOf j = rowOf i := by
  obtain ⟨hr, ho, ha⟩ := rowOf_selects_iff.mp h
  have hl := lenFits_iff.mpr (argOf_lt c)
  simp only [decode_eq_instr_iff]
  cases i with
  | initHash => exact ⟨.initHash, ⟨hr, ho, ha (.inl rfl), rfl⟩, rfl⟩
  | initKeyed =>
    have hk := (keyedArg_fields c).symm
    exact ⟨.initKeyed (klenOf c) (idlenOf c) (clenOf c), ⟨hr, ho, hk, keyedFields_wf c⟩, rfl⟩
  | absorb => exact ⟨.absorb (argOf c), ⟨hr, ho, rfl, hl⟩, rfl⟩
  | encrypt => exact ⟨.encrypt (argOf c), ⟨hr, ho, rfl, hl⟩, rfl⟩
  | decrypt => exact ⟨.decrypt (argOf c), ⟨hr, ho, rfl, hl⟩, rfl⟩
  | squeeze => exact ⟨.squeeze (argOf c), ⟨hr, ho, rfl, hl⟩, rfl⟩
  | squeezeKey => exact ⟨.squeezeKey (argOf c), ⟨hr, ho, rfl, hl⟩, rfl⟩
  | ratchet => exact ⟨.ratchet, ⟨hr, ho, ha (.inr (.inl rfl)), rfl⟩, rfl⟩
  | zeroize => exact ⟨.zeroize, ⟨hr, ho, ha (.inr (.inr rfl)), rfl⟩, rfl⟩

/-- A word selects a row of the map iff it decodes to a command of that row. -/
theorem selects_iff_decode {c : Word} {row : OpcodeRow} (h : row ∈ opcodeTable) :
    row.selects c = true ↔ ∃ i, decode c = .instr i ∧ rowOf i = row := by
  constructor
  · obtain ⟨i, rfl⟩ := exists_rowOf h
    exact decode_of_selects
  · rintro ⟨i, hi, rfl⟩
    exact selects_of_decode hi

/-- Settles O3: the rows a word selects are those of the commands it decodes to, and it decodes to one at most. -/
theorem decodeFollowsOpcodeMap : Obligations.DecodeFollowsOpcodeMap := by
  refine ⟨fun c m => ⟨?_, ?_⟩, fun c r hr r' hr' h h' => ?_⟩
  · rintro ⟨i, hi, rfl⟩
    exact ⟨rowOf i, rowOf_mem i, rfl, selects_of_decode hi⟩
  · rintro ⟨row, hrow, rfl, h⟩
    obtain ⟨i, hi, rfl⟩ := (selects_iff_decode hrow).mp h
    exact ⟨i, hi, rfl⟩
  · obtain ⟨i, hi, rfl⟩ := (selects_iff_decode hr).mp h
    obtain ⟨j, hj, rfl⟩ := (selects_iff_decode hr').mp h'
    rw [hi, Decoded.instr.injEq] at hj
    rw [hj]

/-! ### Illegal words -/

/-- A word is illegal iff one of the causes of 30 R67 applies. -/
theorem decode_illegal_iff {c : Word} :
    (∃ e, decode c = .illegal e) ↔ opcOf c = 0x0 ∨ 0xA ≤ opcOf c ∨ rsvOf c ≠ 0 ∨
      ((opcOf c = 0x1 ∨ opcOf c = 0x8 ∨ opcOf c = 0x9) ∧ argOf c ≠ 0) := by
  constructor
  · rintro ⟨e, he⟩
    by_contra! hn
    obtain ⟨h0, hA, hr, hN⟩ := hn
    obtain ⟨i, hi⟩ := exists_opcode (Nat.pos_of_ne_zero h0) (Nat.le_of_lt_succ hA)
    have sel : (rowOf i).selects c = true := rowOf_selects_iff.mpr ⟨hr, hi.symm, fun n => hN (hi ▸ n)⟩
    obtain ⟨j, hj, -⟩ := decode_of_selects sel
    rw [he] at hj
    cases hj
  · intro h
    cases hd : decode c with
    | illegal e => exact ⟨e, rfl⟩
    | instr i =>
      obtain ⟨hr, ho, ha, -⟩ := decode_eq_instr_iff.mp hd
      have b := opcode_bounds i
      rw [← ho] at b
      rcases h with h | h | h | ⟨hN, h⟩
      · omega
      · omega
      · exact absurd hr h
      · exact absurd (ha.trans (argument_formatN (by rwa [ho] at hN))) h

/-- Settles O5: the causes of 30 R67 are on the fields; a word that decodes to a command selects its row; an illegal word
gets its answer and nothing else happens. -/
theorem illegalWords : Obligations.IllegalWords := by
  refine ⟨fun c => ?_, fun c => ?_, fun s c e rest hc hd => ?_⟩
  · rw [decode_illegal_iff]
    simp only [opcOf, rsvOf, argOf, ne_eq, BitVec.le_def, ← BitVec.toNat_inj]
    rfl
  · cases hd : decode c with
    | illegal e => exact .inl ⟨e, rfl⟩
    | instr i => exact .inr ⟨rowOf i, rowOf_mem i, selects_of_decode hd⟩
  · rw [step_input hc]
    refine (processCommand_illegal hd _).trans (congrArg Host.Outcome.next ?_)
    simp only [illegalCommand, raise, finish_eq, List.append_nil]
    rfl


/-! ### Payload -/

theorem wordPayloadLen_illegal {c : Word} {e : Illegal} (d : decode c = .illegal e) : wordPayloadLen c = 0 := by
  simp only [wordPayloadLen, d]

theorem wordPayloadLen_instr {c : Word} {i : Instr} (d : decode c = .instr i) : wordPayloadLen c = payloadLen i := by
  simp only [wordPayloadLen, d]

/-- With less than its payload on `DIN` a command is stuck (70 R175). -/
theorem exec_short {i : Instr} {s : State} (h : s.din.length < payloadLen i) :
    exec i s = .fault .stuckAwaitingPayload := by
  rw [exec_eq, runCommand_short h]

/-- With its payload on `DIN` a command answers, and takes that payload however it ends (30 R64). -/
theorem exec_ready {i : Instr} {s : State} (h : PayloadReady i s) :
    ∃ t, exec i s = .next t ∧ t.din = s.din.drop (payloadLen i) := by
  have e := (exec_eq i s).trans (runCommand_ready h)
  obtain ⟨-, r, hr, o, -⟩ := exec_next e
  exact ⟨_, e, hr ▸ o.din⟩

theorem processCommand_short {c : Word} {s : State} (h : s.din.length < wordPayloadLen c) :
    processCommand c s = .fault .stuckAwaitingPayload := by
  cases d : decode c with
  | illegal e =>
    rw [wordPayloadLen_illegal d] at h
    exact absurd h (Nat.not_lt_zero _)
  | instr i =>
    rw [wordPayloadLen_instr d] at h
    rw [processCommand_instr d, exec_short h]

theorem processCommand_ready {c : Word} {s : State} (h : wordPayloadLen c ≤ s.din.length) :
    ∃ t, processCommand c s = .next t ∧ t.din = s.din.drop (wordPayloadLen c) := by
  cases d : decode c with
  | illegal e =>
    rw [wordPayloadLen_illegal d]
    exact ⟨_, processCommand_illegal d s, rfl⟩
  | instr i =>
    rw [wordPayloadLen_instr d] at h ⊢
    rw [processCommand_instr d]
    exact exec_ready h

/-- Settles O8: the payload length is that of the word. -/
theorem payloadFraming : Obligations.PayloadFraming := by
  intro s c rest hc
  rw [step_input hc]
  refine ⟨wordPayloadLen c, fun _ d => wordPayloadLen_illegal d, fun i d => ?_,
    processCommand_short (s := s.setCmd rest), processCommand_ready (s := s.setCmd rest)⟩
  rw [wordPayloadLen_instr d]
  cases i <;> rfl

/-! ### The response word -/

theorem validBit_lt (v : Bool) : validBit v < 2 := by cases v <;> decide

theorem modeBit_lt (m : Mode) : modeBit m < 2 := by cases m <;> decide

theorem phaseBit_lt (p : Phase) : phaseBit p < 2 := by cases p <;> decide

theorem statusCode_lt (st : Status) : statusCode st < 256 := by cases st <;> decide

/-- The response word as a number carries the status code and the three flags side by side, and nothing above them
(30 R66). -/
theorem responseWord_fields (st : Status) (s : State) :
    (responseWord st s).toNat % 2 ^ 8 = statusCode st ∧
    (responseWord st s).toNat / 2 ^ 8 % 2 = validBit s.valid ∧
    (responseWord st s).toNat / 2 ^ 9 % 2 = modeBit s.mode ∧
    (responseWord st s).toNat / 2 ^ 10 % 2 = phaseBit s.phase ∧
    (responseWord st s).toNat / 2 ^ 11 = 0 := by
  have := statusCode_lt st
  have := validBit_lt s.valid
  have := modeBit_lt s.mode
  have := phaseBit_lt s.phase
  rw [responseWord, BitVec.toNat_ofNat]
  omega

/-- `CODE` is in bits 7:0 (30 R66). -/
theorem responseWord_code (st : Status) (s : State) :
    (responseWord st s).extractLsb' 0 8 = BitVec.ofNat 8 (statusCode st) := by
  obtain ⟨code, -⟩ := responseWord_fields st s
  apply BitVec.eq_of_toNat_eq
  rw [BitVec.extractLsb'_toNat, BitVec.toNat_ofNat, Nat.shiftRight_zero, code, Nat.mod_eq_of_lt (statusCode_lt st)]

/-- Bit `k` of a word, by its number. -/
theorem getLsbD_eq_decide (w : Word) (k : Nat) : w.getLsbD k = decide (w.toNat / 2 ^ k % 2 = 1) :=
  Nat.testBit_eq_decide_div_mod_eq

/-- `VALID` is bit 8 (30 R66). -/
theorem responseWord_valid (st : Status) (s : State) : (responseWord st s).getLsbD 8 = s.valid := by
  obtain ⟨-, valid, -⟩ := responseWord_fields st s
  rw [getLsbD_eq_decide, valid]
  cases s.valid <;> rfl

/-- `MODE` is bit 9 (30 R66). -/
theorem responseWord_mode (st : Status) (s : State) : (responseWord st s).getLsbD 9 = decide (s.mode = .keyed) := by
  obtain ⟨-, -, mode, -⟩ := responseWord_fields st s
  rw [getLsbD_eq_decide, mode]
  cases s.mode <;> rfl

/-- `PHASE` is bit 10 (30 R66). -/
theorem responseWord_phase (st : Status) (s : State) : (responseWord st s).getLsbD 10 = decide (s.phase = .down) := by
  obtain ⟨-, -, -, phase, -⟩ := responseWord_fields st s
  rw [getLsbD_eq_decide, phase]
  cases s.phase <;> rfl

/-- Bits 31:11 are zero (30 R66). -/
theorem responseWord_high (st : Status) (s : State) : (responseWord st s).extractLsb' 11 21 = 0#21 := by
  obtain ⟨-, -, -, -, high⟩ := responseWord_fields st s
  apply BitVec.eq_of_toNat_eq
  rw [BitVec.extractLsb'_toNat, Nat.shiftRight_eq_div_pow, high]
  rfl

/-- `CODE` is 0 on `OK` only (30 R66). -/
theorem responseWord_code_eq_zero_iff {st : Status} {s : State} :
    (responseWord st s).extractLsb' 0 8 = 0x00#8 ↔ st = .ok := by
  rw [responseWord_code]
  cases st <;> decide

/-- Every command ends with one reply, whose status is that of the first failing check or `OK` (60 R155). -/
theorem exec_firstFailure {c : Word} {i : Instr} {s t : State} (d : decode c = .instr i) (e : exec i s = .next t) :
    ∃ r : Reply, t = r.finish ∧ r.state.rsp = s.rsp ∧ FirstFailure Config.P c s (statusCode r.status) := by
  obtain ⟨-, r, rfl, o, hr⟩ := exec_next e
  refine ⟨r, rfl, o.rsp, ?_⟩
  simp only [FirstFailure, d]
  rcases hr with ⟨op, hv, rfl⟩ | ⟨k, hv, hm, rfl⟩ | ⟨l, rfl⟩ | ⟨hv, hm, l, ok, -⟩
  · exact .inl ⟨op, hv, rfl⟩
  · exact .inr (.inl ⟨k, hv, hm, rfl⟩)
  · exact .inr (.inr (.inl ⟨l, rfl⟩))
  · exact .inr (.inr (.inr ⟨hv, hm, l, by rw [ok]; rfl⟩))

/-- So does an illegal word (60 R155 step 2). -/
theorem processCommand_firstFailure {c : Word} {s t : State} (h : processCommand c s = .next t) :
    ∃ r : Reply, t = r.finish ∧ r.state.rsp = s.rsp ∧ FirstFailure Config.P c s (statusCode r.status) := by
  rcases processCommand_next h with ⟨e, d, rfl⟩ | ⟨i, d, ht⟩
  · exact ⟨raise .errIllegal s, rfl, rfl, by simp only [FirstFailure, d]; rfl⟩
  · exact exec_firstFailure d ht

/-- Settles O10: the one response word is that of the reply, over the state the reply leaves. -/
theorem responseOfEveryCommand : Obligations.ResponseOfEveryCommand := by
  intro s t c rest hc h
  rw [step_input hc] at h
  obtain ⟨r, rfl, hrsp, hf⟩ := processCommand_firstFailure h
  exact ⟨responseWord r.status r.state, statusCode r.status, congrArg (· ++ [_]) hrsp, hf, responseWord_code _ _,
    responseWord_valid _ _, responseWord_mode _ _, responseWord_phase _ _, responseWord_high _ _⟩

/-! ### Output -/

/-- The rule of a command that passes every check gives `OutLen` bytes of output (30 R65). -/
theorem ruleOf_out_length {i : Instr} {X : Bytes} {s : State} (h : Inv Config.P s)
    (hv : IsOperation i → s.valid = true) (hm : IsKeyedOnly i → s.mode = .keyed) (hk : ¬ KeyTooLong Config.P i)
    (l : X.length = payloadLen i) : (ruleOf i X s).out.length = outLen i := by
  by_cases o : IsOperation i
  · obtain ⟨Y, t, e, -, hY, -⟩ := operation_rule h (hv o) ((needsInstance_iff i).mpr o)
      (fun k => hm ((needsKeyed_iff i).mp k)) l
    rw [e]
    exact hY
  · cases i with
    | initHash | zeroize => rfl
    | initKeyed k d c =>
      have fits : ¬ k + d + 1 > Config.P.rKeyedAbsorb := fun g => hk ⟨k, d, c, rfl, g⟩
      simp only [ruleOf, initKeyedRule, fits, if_false, done, outLen, List.length_nil]
    | absorb | encrypt | decrypt | squeeze | squeezeKey | ratchet => simp [IsOperation] at o

/-- A command ends with one reply: `OutLen` bytes of output on `OK`, none on an error (30 R65). -/
theorem exec_output {i : Instr} {s t : State} (h : Inv Config.P s) (e : exec i s = .next t) :
    ∃ r : Reply, t = r.finish ∧ r.state.dout = s.dout ∧ r.state.rsp = s.rsp ∧
      (r.status = .ok → r.out.length = outLen i) ∧ (r.status ≠ .ok → r.out = []) := by
  obtain ⟨p, r, rfl, o, hr⟩ := exec_next e
  refine ⟨r, rfl, o.dout, o.rsp, ?_⟩
  rcases hr with ⟨-, -, rfl⟩ | ⟨-, -, -, rfl⟩ | ⟨-, rfl⟩ | ⟨hv, hm, hk, ok, rfl⟩
  · exact ⟨nofun, fun _ => rfl⟩
  · exact ⟨nofun, fun _ => rfl⟩
  · exact ⟨nofun, fun _ => rfl⟩
  · exact ⟨fun _ => ruleOf_out_length (h.setDin _) hv hm hk (List.length_take_of_le p), fun n => absurd ok n⟩

/-- Settles O9: an illegal word's reply has no output; a command's reply has `OutLen` bytes iff its `CODE` says `OK`. -/
theorem outputLength : Obligations.OutputLength := by
  refine ⟨fun s t c e rest hc d ht => ?_, fun i s t h ht => ?_⟩
  · rw [step_input hc] at ht
    cases (processCommand_illegal d _).symm.trans ht
    exact List.append_nil _
  · obtain ⟨r, rfl, hdout, hrsp, ok, err⟩ := exec_output h ht
    refine ⟨r.out, responseWord r.status r.state, congrArg (· ++ r.out) hdout, congrArg (· ++ [_]) hrsp, ?_, ?_⟩
    · intro hw
      have len := ok (responseWord_code_eq_zero_iff.mp hw)
      cases i <;> exact len
    · exact fun hw => err (mt responseWord_code_eq_zero_iff.mpr hw)

end Sys2Proof.Machine
end

section
/-! PROOFS of the family 41_primitives: the cut into blocks (41 R91), byte by byte what Down and Up do to the buffer (R93,
R95), AbsorbAny, SqueezeAny and Crypt block by block (R97, R99, R101), the ciphertext Crypt leaves in the buffer (R102). -/

namespace Sys2Proof.Machine

/-! ### The cut into blocks -/

/-- Chunk `j` is the bytes from `j * r` on, `r` of them if there are so many (41 R91). -/
theorem split_getElem? (X : Bytes) (r : Nat) {j : Nat} (h : j < numBlocks X.length r) :
    (split X r)[j]? = some ((X.drop (j * r)).take r) := by
  have chunk : slice X (j * r) (min ((j + 1) * r) X.length) = (X.drop (j * r)).take r := by
    rw [slice, ← List.take_take, List.take_length, List.drop_take, Nat.succ_mul, Nat.add_sub_cancel_left]
  rw [split, List.getElem?_map, List.getElem?_range h, Option.map_some, chunk]

/-- The bytes of all blocks are those before the last one and its own `r` (41 R91). -/
theorem numBlocks_mul (l r : Nat) : numBlocks l r * r = (numBlocks l r - 1) * r + r := by
  rw [← Nat.succ_mul, Nat.succ_eq_add_one, Nat.sub_add_cancel (numBlocks_pos l r)]

/-- The blocks are enough for the string, and the last one is not empty unless the string is (41 R91). -/
theorem numBlocks_bounds {r : Nat} (hr : 0 < r) (l : Nat) :
    l ≤ numBlocks l r * r ∧ (0 < l → (numBlocks l r - 1) * r < l) := by
  induction l using length_induction hr with
  | one l h =>
    rw [numBlocks_of_le h]
    omega
  | more l h ih =>
    have last := numBlocks_mul (l - r) r
    rw [numBlocks_of_lt hr h, Nat.add_sub_cancel, Nat.succ_mul]
    omega

/-- Settles O23: the chunks are those of `split_getElem?`, and the block count bounds the last one. -/
theorem splitIsGreedyCut : Obligations.SplitIsGreedyCut := by
  intro X r hr
  obtain ⟨upper, lower⟩ := numBlocks_bounds hr X.length
  have pos := numBlocks_pos X.length r
  refine ⟨numBlocks X.length r, rfl, split_length X r, fun j => split_getElem? X r, ?_, ?_, split_flatten hr X⟩
  · intro j hj c hc
    rw [split_getElem? X r (by omega), Option.some.injEq] at hc
    have full : (j + 1) * r ≤ (numBlocks X.length r - 1) * r := Nat.mul_le_mul_right r (by omega)
    have more : 0 < X.length := Nat.pos_of_ne_zero fun e => by
      rw [numBlocks_of_le (by omega)] at hj; omega
    have := lower more
    rw [Nat.succ_mul] at full
    rw [← hc, List.length_take, List.length_drop]
    omega
  · intro c hc
    rw [split_getElem? X r (by omega), Option.some.injEq] at hc
    have last := numBlocks_mul X.length r
    have len : c.length = min r (X.length - (numBlocks X.length r - 1) * r) := by
      rw [← hc, List.length_take, List.length_drop]
    refine ⟨by omega, by omega, fun ne => ?_⟩
    have := lower (List.length_pos_iff.mpr ne)
    omega

/-! ### Down and Up, byte by byte -/

theorem cdOffset_eq (P : Descriptor) (m : Mode) (r : Nat) : cdOffset P m r = if m = .hash then P.w - 1 else r := by
  cases m <;> rfl

/-- Down XORs the string to the front, the padding behind it and `cd` at its offset (41 R93). -/
theorem down_xoredWith {P : Descriptor} {s : State} (w : s.BufWidth P) (X : Bytes) (r : Nat) (cd : Byte) :
    XoredWith P s.buf (down P X r cd s).buf
      (fun i => X.getD i 0#8 ^^^ byteAt X.length 0x01#8 i ^^^ byteAt (cdOffset P s.mode r) cd i) := by
  refine ⟨(down_duplexed P X r cd s).width w, fun i hi => ?_⟩
  have hb : i < s.buf.length := w.symm ▸ hi
  rw [down_buf, modify_getD _ _ _ _ (by simpa using hb), modify_getD _ _ _ _ (by simpa using hb),
    xorFront_getD _ _ _ hb]
  simp only [byteAt, BitVec.xor_assoc]

/-- Settles O24: byte by byte by `down_xoredWith`; only `buf` and `phase` are written. -/
theorem downEffect : Obligations.DownEffect := by
  intro P X r cd s w _ _
  rw [← cdOffset_eq]
  exact ⟨(down P X r cd s).buf, down_xoredWith w X r cd, rfl⟩

/-- Up sends the buffer with `cu` XORed into its last byte, in Keyed mode only (41 R95). -/
theorem applyCu_xoredWith {P : Descriptor} {s : State} (w : s.BufWidth P) (cu : Byte) :
    XoredWith P s.buf (applyCu P cu s).buf (byteAt (P.w - 1) (if s.mode = .keyed then cu else 0#8)) := by
  refine ⟨(applyCu_buf_length P cu s).trans w, fun i hi => ?_⟩
  cases m : s.mode with
  | hash => simp [applyCu, m, byteAt]
  | keyed =>
    simp only [applyCu, m, if_true]
    exact bufXor_byte w (P.w - 1) i cu hi

/-- Settles O25: the string sent is that of `applyCu_xoredWith`, and the bytes returned are the front of the answer. -/
theorem upEffect : Obligations.UpEffect := by
  intro P n cu s w hn
  have result : up P n cu s =
      ((P.f (applyCu P cu s).buf).take n, { s with
        buf := P.f (applyCu P cu s).buf, phase := .up, perm := s.perm ++ [(applyCu P cu s).buf] }) := by
    rw [← upState_eq, Prod.ext_iff, up_bytes, upState_eq]
    exact ⟨rfl, upState_eq P cu s⟩
  refine ⟨(applyCu P cu s).buf, applyCu_xoredWith w cu, result, ?_⟩
  have len := up_length P cu w (n := n) (by omega)
  rwa [result] at len

/-! ### AbsorbAny, SqueezeAny and Crypt, block by block -/

theorem beforeDown_eq (P : Descriptor) (s : State) :
    beforeDown P s = if s.phase = .down then (up P 0 0x00#8 s).2 else s := by
  unfold beforeDown
  cases s.phase <;> rfl

theorem beforeUp_eq (P : Descriptor) (s : State) :
    beforeUp P s = if s.phase = .up then down P [] s.squeezeRate 0x00#8 s else s := by
  unfold beforeUp
  cases s.phase <;> rfl

/-- Settles O26. -/
theorem absorbAnyBlocks : Obligations.AbsorbAnyBlocks := by
  intro P X r cd s hr _
  rw [← beforeDown_eq]
  exact ⟨fun h => absorbAny_one h cd s, fun h => absorbAny_more hr h cd s, absorbAny_phase hr X cd s,
    (absorbAny_duplexed hr X cd s).dout⟩

/-- Settles O27. -/
theorem squeezeAnyBlocks : Obligations.SqueezeAnyBlocks := by
  intro P l cu s hr _
  rw [← beforeUp_eq]
  exact ⟨fun h => squeezeAny_one h cu, fun h => squeezeAny_more hr h cu, (squeezeAny_spec hr l cu).1⟩

/-- Settles O28: one block is a chunk after the separator, a longer string its first block and then the loop. -/
theorem cryptBlocks : Obligations.CryptBlocks := by
  intro P X d s w
  obtain ⟨phase, -, len⟩ := crypt_spec (P := P) X d s
  refine ⟨fun h => ?_, fun _ _ _ => rfl, crypt_more (descriptor_rKeyedSqueeze P).1 (d := d) (s := s), phase, len w⟩
  rw [← beforeDown_eq]
  exact crypt_one h d s

/-! ### The ciphertext Crypt leaves in the buffer -/

/-- A Down with `cd = 0` leaves the XOR of both strings at the front of the buffer: the padding comes behind (41 R93). -/
theorem down_zero_front {P : Descriptor} {X : Bytes} {s : State} (h : X.length ≤ s.buf.length) (r : Nat) :
    (down P X r 0x00#8 s).buf.take X.length = xorBytes X (s.buf.take X.length) := by
  rw [down_buf, modify_zero, List.take_modify, List.modify_eq_self (by simp), xorFront_take _ _ h]

/-- The ciphertext of a Crypt, which is its input when it decrypts and its output when it encrypts (41 R101). -/
def ciphertextOf (decrypt : Bool) (X O : Bytes) : Bytes := if decrypt then X else O

/-- After a chunk its ciphertext is at the front of the buffer, in both directions (41 R102 (b)). -/
theorem cryptChunk_leaves_ciphertext {P : Descriptor} {s : State} (w : s.BufWidth P) (d : Bool) {c : Bytes}
    (h : c.length ≤ P.w) :
    (cryptChunk P d c s).2.buf.take c.length = ciphertextOf d c (cryptChunk P d c s).1 := by
  have wK : (upState P 0x00#8 s).buf.length = P.w := (upState_duplexed P 0x00#8 s).width w
  have lK := up_length P 0x00#8 w h
  have lO : (xorBytes c (up P c.length 0x00#8 s).1).length = c.length := by rw [xorBytes_length, lK, Nat.min_self]
  cases d with
  | false =>
    have front := down_zero_front (P := P) (wK.symm ▸ h) P.rKeyedSqueeze
    rwa [← up_bytes] at front
  | true =>
    have front := down_zero_front (P := P) (X := xorBytes c (up P c.length 0x00#8 s).1)
      (s := upState P 0x00#8 s) (by omega) P.rKeyedSqueeze
    rwa [lO, ← up_bytes, xorBytes_cancel _ _ lK.ge] at front

/-- Behind the first block, what is the ciphertext of the whole string is that of the rest (41 R101). -/
theorem ciphertextOf_drop (d : Bool) {X O Z : Bytes} {r : Nat} (h : O.length = r) (n : Nat) :
    (ciphertextOf d X (O ++ Z)).drop (n + r) = (ciphertextOf d (X.drop r) Z).drop n := by
  cases d with
  | false => simp [ciphertextOf, ← h, Nat.add_comm n, List.drop_append]
  | true => simp only [ciphertextOf, if_true, List.drop_drop, Nat.add_comm]

/-- After the chunk loop the ciphertext of the last chunk is at the front of the buffer (41 R102 (b)). -/
theorem cryptChunks_leaves_ciphertext {P : Descriptor} {s : State} (w : s.BufWidth P) (d : Bool) {r : Nat}
    (hr : 0 < r) (hw : r ≤ P.w) (X : Bytes) :
    (cryptChunks P d (split X r) s).2.buf.take (X.length - (numBlocks X.length r - 1) * r) =
      (ciphertextOf d X (cryptChunks P d (split X r) s).1).drop ((numBlocks X.length r - 1) * r) := by
  induction X using block_induction hr generalizing s with
  | one X h =>
    simp only [split_of_le h, numBlocks_of_le h, cryptChunks, Nat.sub_self, Nat.zero_mul, Nat.sub_zero,
      List.append_nil, List.drop_zero]
    exact cryptChunk_leaves_ciphertext w d (h.trans hw)
  | more X h ih =>
    have l1 : (X.take r).length = r := List.length_take_of_le h.le
    have lO : (cryptChunk P d (X.take r) s).1.length = r := (cryptChunk_length w (by omega)).trans l1
    have blocks : (numBlocks X.length r - 1) * r = (numBlocks (X.drop r).length r - 1) * r + r := by
      rw [← numBlocks_mul, List.length_drop, numBlocks_of_lt hr h, Nat.add_sub_cancel]
    have left : X.length - ((numBlocks (X.drop r).length r - 1) * r + r) =
        (X.drop r).length - (numBlocks (X.drop r).length r - 1) * r := by rw [List.length_drop]; omega
    rw [blocks, left, split_of_lt hr h]
    simp only [cryptChunks, ciphertextOf_drop d lO]
    exact ih ((cryptChunk_duplexed d _ s).width w)

/-- ENCRYPT and DECRYPT of the payload `X` on a live Keyed engine answer with the rule of Crypt (44 R130, R131). -/
theorem exec_crypt {i : Instr} {d : Bool} {X rest : Bytes} {s : State} (v : s.valid = true) (m : s.mode = .keyed)
    (hd : s.din = X ++ rest) (hi : i = .encrypt X.length ∧ d = false ∨ i = .decrypt X.length ∧ d = true) :
    exec i s = .next (cryptRule Config.P d X (s.setDin rest)).finish := by
  have len : payloadLen i = X.length := by rcases hi with ⟨rfl, -⟩ | ⟨rfl, -⟩ <;> rfl
  have rule : ruleOf i = cryptRule Config.P d := by rcases hi with ⟨rfl, rfl⟩ | ⟨rfl, rfl⟩ <;> rfl
  have ready : PayloadReady i s := by simp [PayloadReady, len, hd]
  rw [exec_ok ready (fun _ => v) (fun _ => m), len, rule, hd, List.take_left, List.drop_left]

/-- After ENCRYPT or DECRYPT of `X` with the output `O` the ciphertext of the last chunk is at the front of the buffer
(41 R102 (b)). -/
theorem exec_crypt_leaves_ciphertext {i : Instr} {d : Bool} {X O rest : Bytes} {s t : State} (h : Inv Config.P s)
    (v : s.valid = true) (m : s.mode = .keyed) (hd : s.din = X ++ rest)
    (hi : i = .encrypt X.length ∧ d = false ∨ i = .decrypt X.length ∧ d = true)
    (e : exec i s = .next t) (hO : t.dout = s.dout ++ O) :
    let k := (numBlocks X.length Config.P.rKeyedSqueeze - 1) * Config.P.rKeyedSqueeze
    t.buf.take (X.length - k) = (ciphertextOf d X O).drop k := by
  rw [exec_crypt v m hd hi] at e
  cases e
  obtain ⟨-, duplexed, -⟩ := crypt_spec (P := Config.P) X d (s.setDin rest)
  obtain rfl : (crypt Config.P X d (s.setDin rest)).1 = O :=
    List.append_cancel_left ((congrArg (· ++ _) duplexed.dout).symm.trans hO)
  obtain ⟨hr, hw⟩ := descriptor_rKeyedSqueeze Config.P
  exact cryptChunks_leaves_ciphertext ((cryptStart_duplexed (s.setDin rest)).width h.width) d hr hw X

/-- Settles O38: the ciphertext is the output of ENCRYPT and the payload of DECRYPT. -/
theorem cryptLeavesCiphertext : Obligations.CryptLeavesCiphertext := by
  rintro s t M C rest k h v m len rfl (⟨hd, e, hO⟩ | ⟨hd, e, hO⟩)
  · exact exec_crypt_leaves_ciphertext h v m hd (.inl ⟨rfl, rfl⟩) e hO
  · rw [← len]
    exact exec_crypt_leaves_ciphertext h v m hd (.inr ⟨rfl, rfl⟩) e hO

end Sys2Proof.Machine
end

section
/-! PROOFS of the family 42_construction: INIT_HASH, INIT_KEYED and ZEROIZE from any state (42 R111 to R114), and that they
and reset leave nothing of the earlier instance (10 R25, 70 R170). -/

namespace Sys2Proof.Machine

/-! ### What construction and teardown answer, and what they look at -/

/-- INIT_HASH, INIT_KEYED and ZEROIZE pass every check: with the payload there, they answer with their rule (60 R155). -/
theorem exec_construction {i : Instr} {s : State} (o : ¬ IsOperation i) (h : PayloadReady i s) :
    exec i s = .next (ruleOf i (s.din.take (payloadLen i)) (s.setDin (s.din.drop (payloadLen i)))).finish := by
  refine exec_ok h (fun n => absurd ((needsInstance_iff i).mp n) o) (fun n => ?_)
  obtain rfl | ⟨n, rfl | rfl⟩ := (needsKeyed_iff i).mp n <;> simp [IsOperation] at o

/-- Without an instance an operation command takes its payload and is refused (60 R152). -/
theorem exec_noInstance {i : Instr} {s : State} (o : IsOperation i) (v : s.valid = false) (h : PayloadReady i s) :
    exec i s = .next (raise .errNoInstance (s.setDin (s.din.drop (payloadLen i)))).finish := by
  have e := replyOf_noInstance (rule := ruleOf i) (X := s.din.take (payloadLen i))
    (s := s.setDin (s.din.drop (payloadLen i))) ((needsInstance_iff i).mpr o) v
  rw [exec_eq, runCommand_ready h, e]

/-- The rules of construction and teardown zeroise first, so they see nothing but a zeroised engine (42 R110 to R114). -/
theorem ruleOf_zeroise {i : Instr} (o : ¬ IsOperation i) (X : Bytes) (s : State) :
    ruleOf i X (zeroise Config.P s) = ruleOf i X s := by
  cases i with
  | initHash | initKeyed | zeroize => rfl
  | absorb | encrypt | decrypt | squeeze | squeezeKey | ratchet => simp [IsOperation] at o

/-- All zeroised engines are the same (42 R110). -/
theorem Zeroised.same {P : Descriptor} {s t : State} (hs : Zeroised P s) (ht : Zeroised P t) : SameEngine s t := by
  obtain ⟨s1, s2, s3, s4, s5, s6, s7⟩ := hs
  obtain ⟨t1, t2, t3, t4, t5, t6, t7⟩ := ht
  exact ⟨s1.trans t1.symm, s2.trans t2.symm, s3.trans t3.symm, s4.trans t4.symm, s5.trans t5.symm,
    s6.trans t6.symm, s7.trans t7.symm⟩

/-- The rules of construction and teardown leave the same engine from any two states. -/
theorem ruleOf_construction_same {i : Instr} (o : ¬ IsOperation i) (X : Bytes) (s s' : State) :
    SameEngine (ruleOf i X s).state (ruleOf i X s').state := by
  rw [← ruleOf_zeroise o X s, ← ruleOf_zeroise o X s']
  exact (ruleOf_same ((zeroise_zeroised _ s).same (zeroise_zeroised _ s')) i X).2.2

/-- So construction and teardown leave the same engine from any two states with the same payload (10 R25). -/
theorem exec_construction_same {i : Instr} {s s' t t' : State} (o : ¬ IsOperation i) (hd : s.din = s'.din)
    (e : exec i s = .next t) (e' : exec i s' = .next t') : SameEngine t t' := by
  rw [exec_construction o (exec_next e).1] at e
  rw [exec_construction o (exec_next e').1, ← hd] at e'
  cases e
  cases e'
  exact ruleOf_construction_same o _ _ _

/-! ### INIT_HASH, ZEROIZE, and what reset leaves -/

/-- Settles O18: the rule is `Zeroise()` and the fields of a fresh Hash instance. -/
theorem initHashResult : Obligations.InitHashResult := by
  intro s
  rw [exec_construction (by simp [IsOperation]) (Nat.zero_le _), finish_eq]
  simp only [ruleOf, initHashRule, done, List.append_nil]
  rfl

/-- Settles O19: the rule is `Zeroise()`, which leaves no instance. -/
theorem zeroizeResult : Obligations.ZeroizeResult := by
  refine fun s => ⟨_, ?_, rfl, fun z => z.same ⟨rfl, rfl, rfl, rfl, rfl, rfl, rfl⟩, fun i o h => ?_⟩
  · rw [exec_construction (by simp [IsOperation]) (Nat.zero_le _), finish_eq]
    simp only [ruleOf, zeroizeRule, done, List.append_nil]
    rfl
  · rw [exec_noInstance o rfl h, finish_eq]
    simp only [raise, List.append_nil]
    rfl

/-- Settles O21: construction sees the payload and a zeroised engine only, and reset zeroises. -/
theorem constructionForgets : Obligations.ConstructionForgets := by
  refine ⟨fun _ _ _ _ _ => exec_construction_same, fun s s' t t' rest rest' hc hc' e e' => ?_⟩
  rw [step_input hc] at e
  rw [step_input hc'] at e'
  cases e
  cases e'
  exact (zeroise_zeroised Config.P _).same (zeroise_zeroised Config.P _)

/-! ### INIT_KEYED -/

/-- The key block of the payload `K || ID || C` (42 R112). -/
theorem keyBlock_append (K ID C : Bytes) :
    keyBlock K.length ID.length (K ++ ID ++ C) = K ++ ID ++ [BitVec.ofNat 8 ID.length] := by
  simp [keyBlock, slice, encodeLen, List.take_append]

/-- The counter of the payload `K || ID || C` (42 R112). -/
theorem counterOf_append (K ID C : Bytes) : counterOf K.length ID.length C.length (K ++ ID ++ C) = C := by
  rw [counterOf, slice, ← List.length_append, ← List.length_append, List.take_length, List.drop_left]

/-- Cut with rate 1, a string that is not empty is one chunk per byte (41 R91). -/
theorem split_one (x : Byte) (X : Bytes) : split (x :: X) 1 = (x :: X).map ([·]) := by
  induction X generalizing x with
  | nil => exact split_of_le (Nat.le_refl 1)
  | cons y X ih => simpa [split_of_lt (X := x :: y :: X) Nat.one_pos (by simp)] using ih y

/-- One byte goes to offset 0 (20 R42). -/
theorem xorFront_singleton (b : Bytes) (c : Byte) : xorFront b [c] = b.modify 0 (· ^^^ c) := by
  cases b <;> simp [xorFront]

/-- One counter byte, after a Down: the permutation, the byte and its padding (42 R113 (b)). -/
theorem counterByte_eq {P : Descriptor} {s : State} (p : s.phase = .down) (c : Byte) :
    down P [c] 1 0x00#8 (beforeDown P s) = { s with buf := counterStep P s.buf c, perm := s.perm ++ [s.buf] } := by
  have up : beforeDown P s = { s with buf := P.f s.buf, phase := .up, perm := s.perm ++ [s.buf] } := by
    simp only [beforeDown, p, upState_eq, applyCu_zero]
  have buf : (down P [c] 1 0x00#8 (beforeDown P s)).buf = counterStep P s.buf c := by
    rw [down_buf, modify_zero, xorFront_singleton, up]
    rfl
  rw [(down_duplexed P [c] 1 0x00#8 (beforeDown P s)).frame, buf, down_phase, ← p, up]
  rfl

/-- The counter absorb, after a Down: each byte in its own step (42 R113 (b)). -/
theorem absorbChunks_counter {P : Descriptor} (C : Bytes) {s : State} (p : s.phase = .down) :
    absorbChunks P 1 (C.map ([·])) 0x00#8 s =
      { s with buf := C.foldl (counterStep P) s.buf, perm := s.perm ++ counterCalls P s.buf C } := by
  induction C generalizing s with
  | nil => simp [absorbChunks, counterCalls]
  | cons c C ih =>
    have step := ih (s := { s with buf := counterStep P s.buf c, perm := s.perm ++ [s.buf] }) p
    simp only [List.map_cons, absorbChunks, counterByte_eq p, step, counterCalls, List.foldl_cons, List.append_assoc,
      List.singleton_append]

/-- The absorbs of the keyed constructor on the payload `K || ID || C`: the key block in one Down, then the counter, if
there is one, byte by byte (42 R112, R113). -/
theorem absorbKey_eq {P : Descriptor} {K ID : Bytes} (C : Bytes) {s : State}
    (h : K.length + ID.length + 1 ≤ P.rKeyedAbsorb) (p : s.phase = .up) :
    absorbKey P K.length ID.length C.length (K ++ ID ++ C) s =
      let t := down P (K ++ ID ++ [BitVec.ofNat 8 ID.length]) P.rKeyedAbsorb 0x02#8 s
      { t with buf := C.foldl (counterStep P) t.buf, perm := t.perm ++ counterCalls P t.buf C } := by
  have fresh : beforeDown P s = s := by simp only [beforeDown, p]
  have fits : (K ++ ID ++ [BitVec.ofNat 8 ID.length]).length ≤ P.rKeyedAbsorb := by simpa [Nat.add_assoc] using h
  simp only [absorbKey, keyBlock_append, counterOf_append, absorbAny_one fits, fresh]
  cases C with
  | nil => rw [if_neg (by simp), List.foldl_nil, counterCalls, List.append_nil]
  | cons c C => rw [if_pos (by simp), absorbAny, split_one, absorbChunks_counter (c :: C) (down_phase ..)]

/-- The fresh Keyed engine that absorbs the key block (42 R112). -/
def freshKeyed (P : Descriptor) (s : State) : State :=
  construct .keyed P.rKeyedAbsorb P.rKeyedSqueeze (zeroise P s)

theorem freshKeyed_width (P : Descriptor) (s : State) : (freshKeyed P s).BufWidth P := zeroise_width P s

/-- A key block that fits is absorbed by a fresh Keyed engine (42 R112). -/
theorem initKeyedRule_fits {P : Descriptor} {k d c : Nat} (h : k + d + 1 ≤ P.rKeyedAbsorb) (D : Bytes) (s : State) :
    initKeyedRule P k d c D s = done [] (absorbKey P k d c D (freshKeyed P s)) :=
  if_neg (Nat.not_lt.mpr h)

/-- INIT_KEYED of the payload `K || ID || C` whose key block fits answers with the absorbs of a fresh Keyed engine. -/
theorem exec_initKeyed {K ID C rest : Bytes} {s : State} (h : K.length + ID.length + 1 ≤ Config.P.rKeyedAbsorb)
    (hd : s.din = K ++ ID ++ C ++ rest) :
    exec (.initKeyed K.length ID.length C.length) s = .next (done [] (absorbKey Config.P K.length ID.length C.length
      (K ++ ID ++ C) (freshKeyed Config.P (s.setDin rest)))).finish := by
  have len : payloadLen (.initKeyed K.length ID.length C.length) = (K ++ ID ++ C).length := by
    rw [List.length_append, List.length_append]; rfl
  have ready : PayloadReady (.initKeyed K.length ID.length C.length) s := by
    rw [PayloadReady, len, hd, List.length_append (bs := rest)]
    exact Nat.le_add_right _ _
  rw [exec_construction (by simp [IsOperation]) ready, len, hd, List.take_left, List.drop_left, ruleOf,
    initKeyedRule_fits h]

/-- Settles O20: byte by byte the key block's Down is that of `down_xoredWith`, and the counter follows by
`absorbKey_eq`. -/
theorem initKeyedResult : Obligations.InitKeyedResult := by
  intro s K ID C rest h hd
  have x := down_xoredWith (freshKeyed_width Config.P (s.setDin rest)) (K ++ ID ++ [BitVec.ofNat 8 ID.length])
    Config.P.rKeyedAbsorb 0x02#8
  rw [List.length_append, List.length_append] at x
  refine ⟨_, x, ?_⟩
  rw [exec_initKeyed h hd, absorbKey_eq C h rfl, finish_eq]
  simp only [done, List.append_nil]
  rfl

end Sys2Proof.Machine
end

section
/-! PROOFS of the family 43_absorb_squeeze: ABSORB, SQUEEZE and SQUEEZE_KEY on a live engine, for every length and byte by
byte for one block (43 R120 to R123), and the hash of no input (45 R141; 95 S1). -/

namespace Sys2Proof.Machine

/-! ### The responses of a live engine -/

theorem responseWord_ok_up {s : State} (v : s.valid = true) (p : s.phase = .up) :
    responseWord .ok s = if s.mode = .keyed then 0x00000300#32 else 0x00000100#32 := by
  rw [responseWord_ok v, p]
  cases s.mode <;> rfl

theorem responseWord_ok_down {s : State} (v : s.valid = true) (p : s.phase = .down) :
    responseWord .ok s = if s.mode = .keyed then 0x00000700#32 else 0x00000500#32 := by
  rw [responseWord_ok v, p]
  cases s.mode <;> rfl

/-! ### ABSORB -/

/-- ABSORB of the payload `X` on a live engine answers with the rule of AbsorbAny (43 R120). -/
theorem exec_absorb {X rest : Bytes} {s : State} (v : s.valid = true) (hd : s.din = X ++ rest) :
    exec (.absorb X.length) s = .next (absorbRule Config.P X (s.setDin rest)).finish := by
  have ready : PayloadReady (.absorb X.length) s := by simp [PayloadReady, payloadLen, hd]
  rw [exec_ok ready (fun _ => v) nofun, hd]
  simp only [payloadLen, List.take_left, List.drop_left]
  rfl

/-- Settles O29: AbsorbAny is made of Downs and Ups and ends in phase Down. -/
theorem absorbCompletes : Obligations.AbsorbCompletes := by
  intro s X rest h v hd
  obtain ⟨⟨hr, -⟩, -⟩ := h.rate_bounds v
  have d := absorbAny_duplexed (P := Config.P) hr X 0x03#8 (s.setDin rest)
  have p := absorbAny_phase (P := Config.P) hr X 0x03#8 (s.setDin rest)
  refine ⟨_, rfl, d.width h.width, ?_⟩
  rw [exec_absorb v hd, absorbRule, State.setDin_absorbRate, d.finish_done,
    responseWord_ok_down (d.valid.trans v) p, d.mode, p, List.append_nil]
  rfl

/-- The alternation step before a Down permutes the buffer iff the phase is Down (41 R97, R101). -/
theorem beforeDown_fresh (P : Descriptor) (s : State) :
    beforeDown P s = { s with buf := freshBuf P s, phase := .up, perm := s.perm ++ freshCall s } := by
  cases p : s.phase with
  | up =>
    simp only [beforeDown, freshBuf, freshCall, p, reduceCtorEq, if_false, List.append_nil]
    rw [← p]
  | down => simp [beforeDown, freshBuf, freshCall, p, upState_eq, applyCu_zero]

/-- Settles O30: one block is one Down after the alternation step, byte by byte that of `down_xoredWith`. -/
theorem absorbOneBlock : Obligations.AbsorbOneBlock := by
  intro s X rest h v hd len
  obtain ⟨t, rfl, -, e⟩ := absorbCompletes s X rest h v hd
  rw [absorbAny_one len] at e
  have w := (beforeDown_duplexed Config.P { s with din := rest }).width h.width
  have x := down_xoredWith w X s.absorbRate 0x03#8
  rw [cdOffset_eq] at x
  rw [beforeDown_fresh] at e x
  exact ⟨_, x, e⟩

/-! ### SQUEEZE and SQUEEZE_KEY -/

/-- SQUEEZE and SQUEEZE_KEY on a live engine answer with the rule of SqueezeAny, each with its `cu` (43 R122, R123). -/
theorem exec_squeeze {i : Instr} {cu : Byte} {n : Nat} {s : State} (v : s.valid = true)
    (hi : i = .squeeze n ∧ cu = 0x40#8 ∨ i = .squeezeKey n ∧ cu = 0x20#8) :
    exec i s = .next (squeezeRule Config.P cu n [] s).finish := by
  rcases hi with ⟨rfl, rfl⟩ | ⟨rfl, rfl⟩
  · exact exec_ok (Nat.zero_le _) (fun _ => v) nofun
  · exact exec_ok (Nat.zero_le _) (fun _ => v) nofun

/-- Settles O31: SqueezeAny is made of Downs and Ups, ends in phase Up and returns the bytes asked for. -/
theorem squeezesComplete : Obligations.SqueezesComplete := by
  intro s n i cu h v hi
  obtain ⟨-, hr, hw⟩ := h.rate_bounds v
  obtain ⟨p, d, len⟩ := squeezeAny_spec (P := Config.P) hr n cu
  refine ⟨(squeezeAny Config.P n cu s).1, (squeezeAny Config.P n cu s).2, rfl, len h.width (by omega),
    d.width h.width, ?_⟩
  rw [exec_squeeze v hi, squeezeRule, d.finish_done, responseWord_ok_up (d.valid.trans v) p, d.mode, p]

/-- XORs into the same buffer, one after the other. -/
theorem XoredWith.trans {P : Descriptor} {A B C : Bytes} {d e : Nat → Byte} (h : XoredWith P A B d)
    (g : XoredWith P B C e) : XoredWith P A C (fun i => d i ^^^ e i) :=
  ⟨g.1, fun i hi => by rw [g.2 i hi, h.2 i hi, BitVec.xor_assoc]⟩

@[simp] theorem byteAt_zero (j i : Nat) : byteAt j 0#8 i = 0#8 := by simp [byteAt]

/-- The alternation step before an Up XORs `0x01` into `buf[0]` iff the phase is Up (41 R99). -/
theorem beforeUp_xoredWith {P : Descriptor} {s : State} (w : s.BufWidth P) :
    XoredWith P s.buf (beforeUp P s).buf (byteAt 0 (if s.phase = .up then 0x01#8 else 0#8)) := by
  cases p : s.phase with
  | up => simpa [beforeUp, p] using down_xoredWith w [] s.squeezeRate 0x00#8
  | down => exact ⟨by simpa [beforeUp, p] using w, fun i _ => by simp [beforeUp, p]⟩

/-- Without a permutation call nothing is sent on `PERM` (40 R82). -/
theorem Duplexed.perm_eq {P : Descriptor} {s t : State} (d : Duplexed P s t 0) : t.perm = s.perm := by
  obtain ⟨c, hc, len, -⟩ := d.calls
  rw [hc, List.length_eq_zero_iff.mp len, List.append_nil]

/-- Settles O32: one block is one Up after the alternation step, and each XORs its own bytes into the buffer. -/
theorem squeezeOneBlock : Obligations.SqueezeOneBlock := by
  intro s n i cu h v len hi
  obtain ⟨Y, t, r, -, -, e⟩ := squeezesComplete s n i cu h v hi
  have d := beforeUp_duplexed Config.P s
  have x := (beforeUp_xoredWith h.width).trans (applyCu_xoredWith (d.width h.width) cu)
  rw [squeezeAny_one len, Prod.ext_iff, up_bytes, up_state, upState_eq, d.perm_eq] at r
  obtain ⟨rfl, rfl⟩ := r
  rw [d.mode] at x
  exact ⟨_, x, e⟩

/-- Settles O33: both commands make the same checks, and in Hash mode SqueezeAny ignores `cu`. -/
theorem squeezeKeyIsSqueezeInHashMode : Obligations.SqueezeKeyIsSqueezeInHashMode := by
  intro s n h
  have rule : ∀ X, ruleOf (.squeezeKey n) X s = ruleOf (.squeeze n) X s := fun X => by
    simp only [ruleOf, squeezeRule, squeezeAny_hash n 0x20#8 0x40#8 h]
  have reply : ∀ X, replyOf (.squeezeKey n) (ruleOf (.squeezeKey n)) X s =
      replyOf (.squeeze n) (ruleOf (.squeeze n)) X s := fun X => by
    rw [replyOf, rule]
    rfl
  rw [exec_eq, exec_eq, runCommand_ready (Nat.zero_le _), runCommand_ready (Nat.zero_le _)]
  exact congrArg (fun r => Host.Outcome.next r.finish) (reply _)

/-! ### The hash of no input -/

/-- The fresh Hash engine that INIT_HASH leaves (42 R111). -/
def freshHash (P : Descriptor) (s : State) : State := construct .hash P.rAbsorb P.rSqueeze (zeroise P s)

/-- `HASH.NEW` leaves a fresh Hash engine, answered `OK`, with the rest of the script (45 R141). -/
theorem run_hashNew (k : Nat) (l : List Transaction) (s : State) :
    Sys2Proof.core.run (k + 1) (presentScript (hashNew ++ l) s) =
      Sys2Proof.core.run k (presentScript l ((freshHash Config.P s).rspWrite 0x00000100#32)) :=
  run_presentScript k ⟨.initHash, []⟩ l s _ (decodeOfEncode .initHash rfl) (initHashResult _)

theorem freshHash_rspWrite_inv (s : State) (w : Word) : Inv Config.P ((freshHash Config.P s).rspWrite w) :=
  (construct_inv Config.P .hash s).of_same (.refl _)

/-- `HASH.FINALIZE` as the last of a script ends with what its SQUEEZE answers (45 R141). -/
theorem run_hashFinalize {n : Nat} {s t : State} (wf : (squeezeTx n).instr.wf = true)
    (e : exec (.squeeze n) s = .next t) : Sys2Proof.core.run 1 (presentScript (hashFinalize n) s) = .next t :=
  run_presentScript 0 (squeezeTx n) [] s t (decodeOfEncode _ wf) e

/-- What a buffer is XORed with determines what it becomes. -/
theorem XoredWith.unique {P : Descriptor} {A B C : Bytes} {d : Nat → Byte} (h : XoredWith P A B d)
    (g : XoredWith P A C d) : B = C := by
  refine List.ext_getElem (h.1.trans g.1.symm) fun i hB hC => ?_
  have hi : i < P.w := h.1 ▸ hB
  rw [← List.getD_eq_getElem _ 0#8, ← List.getD_eq_getElem _ 0#8, h.2 i hi, g.2 i hi]

/-- The padding of an empty string, alone in a fresh buffer (95 S1). -/
theorem zeros_xoredWith_padding (P : Descriptor) :
    XoredWith P (zeros P.w) (0x01#8 :: zeros (P.w - 1)) (fun i => byteAt 0 0x01#8 i ^^^ byteAt (P.w - 1) 0#8 i) := by
  have rates := descriptor_bounds P
  refine ⟨by rw [List.length_cons, zeros_length]; omega, fun i _ => ?_⟩
  simp only [zeros_getD, byteAt_zero]
  cases i with
  | zero => rfl
  | succ i => rw [List.getD_cons_succ, zeros_getD]; simp [byteAt]

/-- Settles O49: the squeeze finds a zero buffer in phase Up, so it sends the padding alone. -/
theorem hashOfNoInput : Obligations.HashOfNoInput := by
  intro s n len wf
  have inv := freshHash_rspWrite_inv s 0x00000100#32
  obtain ⟨B, x, e⟩ := squeezeOneBlock _ n (.squeeze n) 0x40#8 inv rfl len (.inl ⟨rfl, rfl⟩)
  obtain rfl : B = 0x01#8 :: zeros (Config.P.w - 1) := XoredWith.unique x (zeros_xoredWith_padding Config.P)
  exact ⟨_, (run_hashNew 1 (hashFinalize n) s).trans (run_hashFinalize wf e), rfl, rfl⟩

end Sys2Proof.Machine
end

section
/-! PROOFS of the family 44_crypt_ratchet: ENCRYPT and DECRYPT on a live Keyed engine, for every length and byte by byte for
one block, that one undoes the other (44 R130 to R132), and RATCHET (R133, R134). -/

namespace Sys2Proof.Machine

/-! ### ENCRYPT and DECRYPT, for every length -/

/-- A rule of a live Keyed engine made of Downs and Ups that ends with `OK` in phase Down: everything the command changes
(10 R21, R22; 30 R65, R66). -/
theorem Duplexed.finish_keyed {P : Descriptor} {s t : State} {k : Nat} (d : Duplexed P s t k) (v : s.valid = true)
    (m : s.mode = .keyed) (p : t.phase = .down) (Y : Bytes) :
    (done Y t).finish = { s with
      buf := t.buf, phase := .down, perm := t.perm, dout := s.dout ++ Y, rsp := s.rsp ++ [0x00000700#32] } := by
  rw [d.finish_done, responseWord_ok_down (d.valid.trans v) p, if_pos (d.mode.trans m), p]

/-- Settles O35: Crypt is made of Downs and Ups, ends in phase Down and returns as many bytes as it is given. -/
theorem cryptCommandsComplete : Obligations.CryptCommandsComplete := by
  intro s X rest i d h v m hd hi
  obtain ⟨p, g, len⟩ := crypt_spec (P := Config.P) X d (s.setDin rest)
  refine ⟨_, _, rfl, len h.width, g.width h.width, ?_⟩
  rw [exec_crypt v m hd hi, cryptRule, g.finish_keyed v m p]
  rfl

/-! ### DECRYPT undoes ENCRYPT -/

/-- The chunk loop on its own output: the chunks of the output are the output chunks, and each gives its chunk back
(41 R102 (c)). -/
theorem cryptChunks_roundtrip {P : Descriptor} {s : State} (w : s.BufWidth P) {r : Nat} (hr : 0 < r) (hw : r ≤ P.w)
    (M : Bytes) :
    cryptChunks P true (split (cryptChunks P false (split M r) s).1 r) s =
      (M, (cryptChunks P false (split M r) s).2) := by
  induction M using block_induction hr generalizing s with
  | one M h =>
    have lC : (cryptChunk P false M s).1.length = M.length := cryptChunk_length w (h.trans hw)
    simp only [split_of_le h, cryptChunks, List.append_nil]
    rw [split_of_le (lC.trans_le h)]
    simp only [cryptChunks, List.append_nil, cryptChunk_roundtrip w (h.trans hw)]
  | more M h ih =>
    have l1 : (M.take r).length = r := List.length_take_of_le h.le
    have lC : (cryptChunk P false (M.take r) s).1.length = r := (cryptChunk_length w (l1.trans_le hw)).trans l1
    have w' := (cryptChunk_duplexed (P := P) false (M.take r) s).width w
    have lZ : (cryptChunks P false (split (M.drop r) r) (cryptChunk P false (M.take r) s).2).1.length =
        (M.drop r).length := by
      rw [cryptChunks_length w' fun c hc => (split_chunk_le hc).trans hw, split_flatten hr]
    simp only [split_of_lt hr h, cryptChunks]
    rw [split_of_lt hr (by rw [List.length_append, lC, lZ, List.length_drop]; omega), List.take_left' lC,
      List.drop_left' lC]
    simp only [cryptChunks, cryptChunk_roundtrip w (l1.trans_le hw), ih w', List.take_append_drop]

/-- Crypt of its own output in the other direction gives the string back and the same state (41 R102 (c)). -/
theorem crypt_roundtrip {P : Descriptor} {s : State} (w : s.BufWidth P) (M : Bytes) :
    crypt P (crypt P M false s).1 true s = (M, (crypt P M false s).2) :=
  have ⟨hr, hw⟩ := descriptor_rKeyedSqueeze P
  cryptChunks_roundtrip ((cryptStart_duplexed s).width w) hr hw M

/-- Settles O37: both commands run Crypt from the same state, and `crypt_roundtrip` gives the string and that state. -/
theorem decryptUndoesEncrypt : Obligations.DecryptUndoesEncrypt := by
  intro s M rest h v m hd
  obtain ⟨C, t0, r, len, -, enc⟩ := cryptCommandsComplete s M rest _ false h v m hd (.inl ⟨rfl, rfl⟩)
  obtain ⟨M', u0, r', -, -, dec⟩ := cryptCommandsComplete { s with din := C ++ rest } C rest _ true
    (h.setDin _) v m rfl (.inr ⟨rfl, rfl⟩)
  have back := crypt_roundtrip (P := Config.P) (s := { s with din := rest }) h.width M
  rw [← r, ← r', Prod.mk.injEq] at back
  obtain ⟨rfl, rfl⟩ := back
  rw [len] at dec
  exact ⟨C, _, _, len, enc, rfl, dec, rfl, .refl _, rfl, rfl⟩

/-! ### One block of Crypt, byte by byte -/

/-- The separator of Crypt in Keyed mode, after the alternation step: padding at offset 0, `0x80` at the rate (41 R101). -/
theorem cryptStart_xoredWith {P : Descriptor} {s : State} (w : s.BufWidth P) (m : s.mode = .keyed) :
    XoredWith P (freshBuf P s) (cryptStart P s).buf
      (fun j => byteAt 0 0x01#8 j ^^^ byteAt P.rKeyedSqueeze 0x80#8 j) := by
  have d := beforeDown_duplexed P s
  have x := down_xoredWith (d.width w) [] P.rKeyedSqueeze 0x80#8
  rw [d.mode, m, beforeDown_fresh] at x
  simpa [cryptStart, beforeDown_fresh, cdOffset] using x

/-- What comes before the first chunk changes the buffer, the phase and, from phase Down, the `PERM` stream (41 R101). -/
theorem cryptStart_eq (P : Descriptor) (s : State) :
    cryptStart P s =
      { s with buf := (cryptStart P s).buf, phase := .down, perm := s.perm ++ freshCall s } := by
  rw [cryptStart, (down_duplexed P [] P.rKeyedSqueeze 0x80#8 (beforeDown P s)).frame, beforeDown_fresh]
  rfl

/-- A byte of the front of a string is that of the string; there is none behind it. -/
theorem take_getD (K : Bytes) (n j : Nat) : (K.take n).getD j 0#8 = if j < n then K.getD j 0#8 else 0#8 := by
  simp only [List.getD_eq_getElem?_getD, List.getElem?_take]
  split <;> rfl

/-- The XOR of a string with the front of a longer one, from its bytes (41 R92). -/
theorem eq_xorBytes_take {A C K : Bytes} (hK : A.length ≤ K.length) (len : C.length = A.length)
    (h : ∀ j < A.length, C.getD j 0#8 = A.getD j 0#8 ^^^ K.getD j 0#8) : C = xorBytes A (K.take A.length) := by
  refine List.ext_getElem (by simp [len, hK]) fun j hC _ => ?_
  have hA : j < A.length := len ▸ hC
  have hKj : j < K.length := hA.trans_le hK
  simpa [xorBytes, hA, hC, hKj] using h j hA

/-- A Down with `cd = 0` XORs the string to the front of the buffer and the padding behind it (41 R93). -/
theorem down_zero_xoredWith {P : Descriptor} {s : State} (w : s.BufWidth P) (X : Bytes) (r : Nat) :
    XoredWith P s.buf (down P X r 0x00#8 s).buf (fun i => X.getD i 0#8 ^^^ byteAt X.length 0x01#8 i) := by
  simpa only [byteAt_zero, BitVec.xor_zero] using down_xoredWith w X r 0x00#8

/-- One chunk that is encrypted: the buffer is sent, the keystream is the front of the answer, and the chunk with its
padding is absorbed into the answer (41 R101). -/
theorem cryptChunk_encrypt {P : Descriptor} {s : State} (w : s.BufWidth P) (M : Bytes) :
    ∃ D, XoredWith P (P.f s.buf) D (fun j => M.getD j 0#8 ^^^ byteAt M.length 0x01#8 j) ∧
      cryptChunk P false M s = (xorBytes M ((P.f s.buf).take M.length),
        { s with buf := D, phase := .down, perm := s.perm ++ [s.buf] }) := by
  have x := down_zero_xoredWith ((upState_duplexed P 0x00#8 s).width w) M P.rKeyedSqueeze
  rw [upState_eq, applyCu_zero] at x
  refine ⟨_, x, ?_⟩
  rw [cryptChunk, up_bytes, up_state, upState_eq, applyCu_zero]
  rfl

/-- One encrypted block, from the buffer `B` the separator leaves (44 R130, 41 R101). -/
theorem crypt_encrypt_oneBlock {P : Descriptor} {s : State} {M B : Bytes} (w : s.BufWidth P) (m : s.mode = .keyed)
    (len : M.length ≤ P.rKeyedSqueeze)
    (x : XoredWith P (freshBuf P s) B (fun j => byteAt 0 0x01#8 j ^^^ byteAt P.rKeyedSqueeze 0x80#8 j)) :
    ∃ D, XoredWith P (P.f B) D (fun j => M.getD j 0#8 ^^^ byteAt M.length 0x01#8 j) ∧
      crypt P M false s = (xorBytes M ((P.f B).take M.length),
        { s with buf := D, phase := .down, perm := s.perm ++ freshCall s ++ [B] }) := by
  obtain rfl := x.unique (cryptStart_xoredWith w m)
  obtain ⟨D, absorbed, e⟩ := cryptChunk_encrypt ((cryptStart_duplexed s).width w) M
  refine ⟨D, absorbed, ?_⟩
  rw [crypt_one len, e, cryptStart_eq]

/-- Settles O36: the encrypted block is that of `crypt_encrypt_oneBlock`, and `crypt_roundtrip` decrypts it. -/
theorem cryptOneBlock : Obligations.CryptOneBlock := by
  intro s M C rest B h v m len x lC hC
  obtain ⟨D, absorbed, enc⟩ := crypt_encrypt_oneBlock (P := Config.P) (s := { s with din := rest }) h.width m len x
  have wide : M.length ≤ (Config.P.f B).length :=
    (len.trans (descriptor_rKeyedSqueeze Config.P).2).trans_eq (Config.P.f_length B x.1).symm
  have dec := crypt_roundtrip (P := Config.P) (s := { s with din := rest }) h.width M
  rw [← eq_xorBytes_take wide lC hC] at enc
  rw [enc] at dec
  refine ⟨D, absorbed, fun hd => ?_, fun hd => ?_⟩
  · obtain ⟨O, t0, r, -, -, e⟩ := cryptCommandsComplete s M rest _ false h v m hd (.inl ⟨rfl, rfl⟩)
    obtain ⟨rfl, rfl⟩ := Prod.mk.inj (r.trans enc)
    exact e
  · obtain ⟨O, t0, r, -, -, e⟩ := cryptCommandsComplete s C rest _ true h v m hd (.inr ⟨rfl, rfl⟩)
    obtain ⟨rfl, rfl⟩ := Prod.mk.inj (r.trans dec)
    rwa [lC] at e

/-! ### RATCHET -/

/-- RATCHET over any descriptor on a live Keyed engine: the squeezed bytes are absorbed back; `scratch` is zero before the
command and after it (44 R133). -/
theorem ratchetCommand_keyed {P : Descriptor} {s : State} (h : Inv P s) (v : s.valid = true) (m : s.mode = .keyed) :
    let Y := squeezeAny P P.rRatchet 0x10#8 s
    let t := absorbAny P Y.1 P.rKeyedAbsorb 0x00#8 Y.2
    ratchetCommand P s = .next { s with
      buf := t.buf, phase := .down, perm := t.perm, rsp := s.rsp ++ [0x00000700#32] } := by
  intro Y t
  obtain ⟨-, hr, hw⟩ := h.rate_bounds v
  obtain ⟨p, d⟩ := ratchet_duplexed h.width hr (hw.trans (Nat.sub_le _ _))
  have zero : t.setScratch (zeros P.rRatchet) = t := by
    rw [← h.scratch, ← d.scratch]
    rfl
  have run : ratchetCommand P s = .next (ratchetRule P [] s).finish :=
    (runCommand_ready (Nat.zero_le _)).trans
      (congrArg (fun r => Host.Outcome.next r.finish) (replyOf_rule (fun _ => v) (fun _ => m)))
  rw [run, ratchetRule, ratchet_eq, zero, d.finish_keyed v m p, List.append_nil]

/-- Settles O40: SqueezeAny returns the bytes asked for, and Downs and Ups keep the width of the buffer. -/
theorem ratchetCompletes : Obligations.RatchetCompletes := by
  intro s h v m
  obtain ⟨-, hr, hw⟩ := h.rate_bounds v
  have hw := hw.trans (Nat.sub_le _ _)
  obtain ⟨-, -, len⟩ := squeezeAny_spec (P := Config.P) hr Config.P.rRatchet 0x10#8
  obtain ⟨-, d⟩ := ratchet_duplexed h.width hr hw
  refine ⟨_, _, _, rfl, len h.width hw, rfl, d.width h.width, ?_⟩
  rw [← h.scratch]
  exact ratchetCommand_keyed h v m

/-- A squeeze of at most one block over any descriptor, from the buffer `B` it sends (41 R95, R99). -/
theorem squeezeAny_oneBlock {P : Descriptor} {s : State} {l : Nat} (w : s.BufWidth P) (len : l ≤ s.squeezeRate)
    (cu : Byte) :
    ∃ B, XoredWith P s.buf B (fun j => byteAt 0 (if s.phase = .up then 0x01#8 else 0#8) j ^^^
        byteAt (P.w - 1) (if s.mode = .keyed then cu else 0#8) j) ∧
      squeezeAny P l cu s = ((P.f B).take l, { s with buf := P.f B, phase := .up, perm := s.perm ++ [B] }) := by
  have d := beforeUp_duplexed P s
  have x := (beforeUp_xoredWith w).trans (applyCu_xoredWith (d.width w) cu)
  rw [d.mode] at x
  refine ⟨_, x, ?_⟩
  rw [squeezeAny_one len, Prod.ext_iff, up_bytes, up_state, upState_eq, d.perm_eq, d.frame]
  exact ⟨rfl, rfl⟩

/-- Settles O41: the squeeze is one Up, and the absorb one Down of the front of what the permutation answered. -/
theorem ratchetOneBlock : Obligations.RatchetOneBlock := by
  intro P s hs ha h v m
  obtain ⟨B, x, e⟩ := squeezeAny_oneBlock h.width (hs.trans_eq (h.keyed_rates v m).2.symm) 0x10#8
  have r := ratchetCommand_keyed h v m
  have lB : (P.f B).length = P.w := P.f_length B x.1
  have front : ((P.f B).take P.rRatchet).length = P.rRatchet :=
    List.length_take_of_le (by rw [lB]; have := descriptor_bounds P; omega)
  have y := down_zero_xoredWith (s := { s with buf := P.f B, phase := .up, perm := s.perm ++ [B] }) lB
    ((P.f B).take P.rRatchet) P.rKeyedAbsorb
  rw [e] at r
  simp only [absorbAny_one (front.trans_le ha), beforeDown] at r
  rw [m] at x
  refine ⟨B, _, x, y.1, fun j hj => ?_, r⟩
  rw [y.2 j hj]
  simp only [front, take_getD]
  split
  · next lt => simp [byteAt, lt.ne]
  · rw [BitVec.zero_xor]

end Sys2Proof.Machine
end

section
/-! PROOFS of the family 45_facade_contract: what a whole script of well-framed transactions answers, that every
keyed use ends zeroised, the comparison of tags, and the contract of hash, `seal` and `open` (45 R141 to R147). -/

namespace Sys2Proof.Machine

/-! ### What a script answers -/

/-- The word is that of its command and the payload is all of its payload (30 R64, R71). -/
abbrev Transaction.Framed (tx : Transaction) : Prop := tx.instr.wf = true ∧ tx.payload.length = payloadLen tx.instr

/-- The state once the transaction `tx`, offered in `s`, has been answered. -/
def afterTx (s : State) (tx : Transaction) : State := (replyOf tx.instr (ruleOf tx.instr) tx.payload s).finish

/-- The state once all transactions of a script have been answered, each with its own payload. -/
def afterScript (script : List Transaction) (s : State) : State := script.foldl afterTx s

theorem afterScript_append (l l' : List Transaction) (s : State) :
    afterScript (l ++ l') s = afterScript l' (afterScript l s) := List.foldl_append

/-- A command with its payload in front of `DIN` takes that payload and answers. -/
theorem exec_transaction {tx : Transaction} (len : tx.payload.length = payloadLen tx.instr) (s : State) :
    exec tx.instr (s.setDin (tx.payload ++ s.din)) = .next (afterTx s tx) := by
  have ready : PayloadReady tx.instr (s.setDin (tx.payload ++ s.din)) := by simp [PayloadReady, len]
  rw [exec_eq, runCommand_ready ready, State.setDin_din, List.take_left' len, List.drop_left' len]
  rfl

/-- What a command answers with its payload in front of `DIN` is the state once its transaction has been answered. -/
theorem afterTx_eq_of_exec {tx : Transaction} {s t : State} (len : tx.payload.length = payloadLen tx.instr)
    (e : exec tx.instr (s.setDin (tx.payload ++ s.din)) = .next t) : afterTx s tx = t :=
  Host.Outcome.next.inj ((exec_transaction len s).symm.trans e)

/-- Downs and Ups see nothing of a script that is still on the ports. -/
theorem passive_presentScript (l : List Transaction) : Passive (presentScript l) :=
  ⟨fun _ => rfl, fun _ => rfl, fun _ => rfl, fun _ => rfl, fun _ _ => rfl, fun _ _ => rfl, fun _ _ => rfl⟩

/-- A script that is still on the ports is seen by no rule, and each leaves it there. -/
theorem ruleOf_presentScript (l : List Transaction) (i : Instr) (X : Bytes) (s : State) :
    ruleOf i X (presentScript l s) = { ruleOf i X s with state := presentScript l (ruleOf i X s).state } := by
  have hp := passive_presentScript l
  cases i with
  | initHash | zeroize => rfl
  | initKeyed k d c =>
    by_cases h : k + d + 1 ≤ Config.P.rKeyedAbsorb
    · have fresh : freshKeyed Config.P (presentScript l s) = presentScript l (freshKeyed Config.P s) := rfl
      simp only [ruleOf, initKeyedRule_fits h, done, absorbKey, fresh, hp.absorbAny]
      split <;> rfl
    · simp only [ruleOf, initKeyedRule, Nat.lt_of_not_le h, if_true]
      rfl
  | absorb n => exact congrArg (done []) (hp.absorbAny X s.absorbRate 0x03#8 s)
  | encrypt n => exact congrArg (fun O => done O.1 O.2) (hp.crypt X false s)
  | decrypt n => exact congrArg (fun O => done O.1 O.2) (hp.crypt X true s)
  | squeeze n => exact congrArg (fun Y => done Y.1 Y.2) (hp.squeezeAny n 0x40#8 s)
  | squeezeKey n => exact congrArg (fun Y => done Y.1 Y.2) (hp.squeezeAny n 0x20#8 s)
  | ratchet =>
    simp only [ruleOf, ratchetRule, ratchet_eq, hp.squeezeAny, hp.absorbAny]
    rfl

/-- So the script that is left stays on the ports while a transaction is answered. -/
theorem afterTx_presentScript (l : List Transaction) (s : State) (tx : Transaction) :
    afterTx (presentScript l s) tx = presentScript l (afterTx s tx) := by
  have valid : (presentScript l s).valid = s.valid := rfl
  have mode : (presentScript l s).mode = s.mode := rfl
  unfold afterTx replyOf
  rw [valid, mode, ruleOf_presentScript]
  split
  · rfl
  · split <;> rfl

/-- A script of well-framed transactions runs to its end, whether its commands succeed or not. -/
theorem run_script {script : List Transaction} (framed : ∀ tx ∈ script, tx.Framed) (s : State) :
    Sys2Proof.core.run script.length (presentScript script s) = .next (afterScript script s) := by
  induction script generalizing s with
  | nil => rfl
  | cons tx l ih =>
    obtain ⟨⟨wf, len⟩, rest⟩ := List.forall_mem_cons.mp framed
    rw [List.length_cons, run_presentScript l.length tx l s _ (decodeOfEncode _ wf) (exec_transaction len _),
      afterTx_presentScript, ih rest]
    rfl

/-- What is left on the input ports stays there while a transaction is answered. -/
theorem afterTx_ports (s : State) (tx : Transaction) : (afterTx s tx).cmd = s.cmd ∧ (afterTx s tx).din = s.din := by
  rcases replyOf_cases tx.instr (ruleOf tx.instr) tx.payload s with ⟨-, -, e⟩ | ⟨-, -, e⟩ | ⟨-, -, e⟩
  · rw [afterTx, e]; exact ⟨rfl, rfl⟩
  · rw [afterTx, e]; exact ⟨rfl, rfl⟩
  · have o := (ruleOf_status tx.instr tx.payload s).1
    rw [afterTx, e]
    exact ⟨o.cmd, o.din⟩

theorem afterScript_ports (script : List Transaction) (s : State) :
    (afterScript script s).cmd = s.cmd ∧ (afterScript script s).din = s.din := by
  induction script generalizing s with
  | nil => exact ⟨rfl, rfl⟩
  | cons tx l ih => exact ⟨(ih _).1.trans (afterTx_ports s tx).1, (ih _).2.trans (afterTx_ports s tx).2⟩

/-! ### Keyed uses end zeroised -/

theorem drop_framed : ∀ tx ∈ drop, tx.Framed := by decide

/-- `DROP` zeroises the engine and answers `OK`, whatever came before it (42 R114, 45 R145 (c)). -/
theorem afterScript_drop (s : State) : afterScript drop s = (done [] (zeroise Config.P s)).finish := rfl

/-- A use that is closed by `DROP` ends zeroised, and the `DROP` delivers nothing (45 R145 (c)). -/
theorem afterScript_append_drop (body : List Transaction) (s : State) :
    Zeroised Config.P (afterScript (body ++ drop) s) ∧
      (afterScript (body ++ drop) s).dout = (afterScript body s).dout := by
  rw [afterScript_append, afterScript_drop]
  exact ⟨zeroise_zeroised Config.P (afterScript body s), List.append_nil (afterScript body s).dout⟩

/-- Settles O51: the use runs to its end, and its last command is `DROP`. -/
theorem keyedUseEndsZeroised : Obligations.KeyedUseEndsZeroised := by
  intro s key id counter body framed
  have run := run_script framed s
  have ports := afterScript_ports (keyedUse key id counter body) s
  rw [show (keyedUse key id counter body).length = body.length + 2 by simp [keyedUse, drop]] at run
  exact ⟨_, run, (afterScript_append_drop (initKeyedTx key id counter :: body) s).1, ports⟩

/-! ### The scripts of `seal` and `open` -/

/-- The commands of `seal` and `open`, which differ in `crypt` only (45 R143, R144). -/
def aeadScript (key nonce ad : Bytes) (crypt : Transaction) (tagLen : Nat) : List Transaction :=
  aeadNew key ++ [absorbTx nonce, absorbTx ad, crypt, squeezeTx tagLen]

theorem aeadSeal_eq (key nonce ad pt : Bytes) (tagLen : Nat) :
    aeadNew key ++ aeadSeal nonce ad pt tagLen = aeadScript key nonce ad (encryptTx pt) tagLen := rfl

theorem aeadOpen_eq (key nonce ad ct : Bytes) (tagLen : Nat) :
    aeadNew key ++ aeadOpen nonce ad ct tagLen = aeadScript key nonce ad (decryptTx ct) tagLen := rfl

/-- When the lengths fit their fields the script is well-framed: each command carries its payload (45 R143, R144). -/
theorem aeadScript_framed {key nonce ad : Bytes} {crypt : Transaction} {tagLen : Nat}
    (wf : ∀ tx ∈ aeadScript key nonce ad crypt tagLen, tx.instr.wf = true)
    (len : crypt.payload.length = payloadLen crypt.instr) :
    ∀ tx ∈ aeadScript key nonce ad crypt tagLen, tx.Framed := by
  refine fun tx h => ⟨wf tx h, ?_⟩
  simp only [aeadScript, aeadNew, List.cons_append, List.nil_append, List.mem_cons, List.not_mem_nil, or_false] at h
  rcases h with rfl | rfl | rfl | rfl | rfl
  · simp [initKeyedTx, payloadLen]
  · rfl
  · rfl
  · exact len
  · rfl

/-- Settles O52: whatever the verdict, the use is the commands of `open` closed by `DROP`. -/
theorem openUseEndsZeroised : Obligations.OpenUseEndsZeroised := by
  intro s key nonce ad ct tag tagLen wf
  rw [aeadOpen_eq] at wf ⊢
  have framed := aeadScript_framed wf rfl
  have closed : keyedUse key [] [] (aeadOpen nonce ad ct tagLen) =
      aeadScript key nonce ad (decryptTx ct) tagLen ++ drop := rfl
  obtain ⟨zero, dout⟩ := afterScript_append_drop (aeadScript key nonce ad (decryptTx ct) tagLen) s
  simp only [openUse_eq, closed]
  exact ⟨_, _, run_script framed s, run_script (List.forall_mem_append.mpr ⟨framed, drop_framed⟩) s, zero, dout,
    afterScript_ports _ s⟩

/-! ### The comparison of tags -/

/-- Every pair of bytes is read (45 R145 (a)). -/
theorem compareTags_count (expected tag : Bytes) :
    (compareTags expected tag).2 = min expected.length tag.length := by
  induction expected generalizing tag with
  | nil => simp [compareTags]
  | cons e expected ih =>
    cases tag with
    | nil => rfl
    | cons t tag => simp only [compareTags, ih, List.length_cons, Nat.succ_min_succ]

/-- No difference is collected from two tags of one length iff they are equal (45 R144). -/
theorem compareTags_eq_zero_iff {expected tag : Bytes} (len : expected.length = tag.length) :
    (compareTags expected tag).1 = 0x00#8 ↔ expected = tag := by
  induction expected generalizing tag with
  | nil =>
    obtain rfl : tag = [] := List.length_eq_zero_iff.mp len.symm
    simp [compareTags]
  | cons e expected ih =>
    cases tag with
    | nil => simp at len
    | cons t tag =>
      rw [compareTags, BitVec.or_eq_zero_iff, BitVec.xor_eq_zero_iff, ih (Nat.succ.inj len), List.cons.injEq]

/-- The plaintext is released iff the tags are equal (45 R144). -/
theorem openResult_eq (m expected tag : Bytes) :
    openResult m expected tag = if expected = tag then .plaintext m else .tagMismatch := by
  have same : expected.length = tag.length ∧ (compareTags expected tag).1 = 0x00#8 ↔ expected = tag :=
    ⟨fun ⟨len, zero⟩ => (compareTags_eq_zero_iff len).mp zero,
      fun eq => ⟨congrArg List.length eq, (compareTags_eq_zero_iff (congrArg List.length eq)).mpr eq⟩⟩
  simp only [openResult, same]

/-- Settles O53. -/
theorem tagComparison : Obligations.TagComparison := fun m expected tag =>
  ⟨openResult_eq m expected tag, compareTags_count expected tag⟩

/-! ### A live Keyed engine -/

/-- A valid engine in Keyed mode between commands (10 R23, R25, R31). -/
structure LiveKeyed (s : State) : Prop where
  inv : Inv Config.P s
  valid : s.valid = true
  mode : s.mode = .keyed

/-- INIT_KEYED with a key that fits leaves a live Keyed engine and delivers nothing (42 R112). -/
theorem afterTx_initKeyed {key id : Bytes} (fits : key.length + id.length + 1 ≤ Config.P.rKeyedAbsorb)
    (counter : Bytes) (s : State) :
    LiveKeyed (afterTx s (initKeyedTx key id counter)) ∧ (afterTx s (initKeyedTx key id counter)).dout = s.dout := by
  have len : (key ++ id ++ counter).length = key.length + id.length + counter.length := by simp [Nat.add_assoc]
  have d := (absorbKey_duplexed (P := Config.P) (s := freshKeyed Config.P s) len fits rfl).1
  have e : afterTx s (initKeyedTx key id counter) = (done [] (absorbKey Config.P key.length id.length counter.length
      (key ++ id ++ counter) (freshKeyed Config.P s))).finish := by
    rw [← initKeyedRule_fits fits]; exact congrArg Reply.finish (replyOf_rule nofun nofun)
  rw [e]
  exact ⟨⟨(d.inv (construct_inv Config.P .keyed s) rfl).finish, d.valid, d.mode⟩,
    (List.append_nil _).trans d.dout⟩

/-- A live Keyed engine passes every check, so it answers with the command's rule (60 R155). -/
theorem LiveKeyed.afterTx_eq {s : State} (h : LiveKeyed s) (tx : Transaction) :
    afterTx s tx = (ruleOf tx.instr tx.payload s).finish :=
  congrArg Reply.finish (replyOf_rule (fun _ => h.valid) (fun _ => h.mode))

/-- An operation command leaves a live Keyed engine, having delivered its `OutLen` bytes (10 R30, 30 R65). -/
theorem LiveKeyed.operation {s : State} {tx : Transaction} (h : LiveKeyed s) (o : IsOperation tx.instr)
    (len : tx.payload.length = payloadLen tx.instr) :
    LiveKeyed (afterTx s tx) ∧ (afterTx s tx).dout = s.dout ++ (ruleOf tx.instr tx.payload s).out ∧
      (ruleOf tx.instr tx.payload s).out.length = outLen tx.instr := by
  have d := operation_duplexed h.inv o h.valid (fun _ => h.mode) len
  have keyFits : ¬ KeyTooLong Config.P tx.instr := by
    rintro ⟨k, i, c, e, -⟩
    simp [e, IsOperation] at o
  rw [h.afterTx_eq]
  exact ⟨⟨(d.inv h.inv h.valid).finish, d.valid.trans h.valid, d.mode.trans h.mode⟩, congrArg (· ++ _) d.dout,
    ruleOf_out_length h.inv (fun _ => h.valid) (fun _ => h.mode) keyFits len⟩

/-! ### `seal` and `open` with a key that fits -/

theorem isOperation_absorbTx (X : Bytes) : IsOperation (absorbTx X).instr := .inr ⟨X.length, by simp [absorbTx]⟩
theorem isOperation_encryptTx (X : Bytes) : IsOperation (encryptTx X).instr := .inr ⟨X.length, by simp [encryptTx]⟩
theorem isOperation_decryptTx (X : Bytes) : IsOperation (decryptTx X).instr := .inr ⟨X.length, by simp [decryptTx]⟩
theorem isOperation_squeezeTx (n : Nat) : IsOperation (squeezeTx n).instr := .inr ⟨n, by simp [squeezeTx]⟩

/-- The commands before `crypt`: the key, the nonce, the associated data (45 R142 to R144). -/
def aeadPrologue (key nonce ad : Bytes) : List Transaction := aeadNew key ++ [absorbTx nonce, absorbTx ad]

/-- With a key that fits, the prologue leaves a live Keyed engine and delivers nothing (42 R112, 43 R120). -/
theorem afterScript_aeadPrologue {key : Bytes} (fits : key.length + 1 ≤ Config.P.rKeyedAbsorb) (nonce ad : Bytes)
    (s : State) : LiveKeyed (afterScript (aeadPrologue key nonce ad) s) ∧
      (afterScript (aeadPrologue key nonce ad) s).dout = s.dout := by
  obtain ⟨h1, d1⟩ := afterTx_initKeyed (id := []) fits [] s
  obtain ⟨h2, d2, -⟩ := h1.operation (isOperation_absorbTx nonce) rfl
  obtain ⟨h3, d3, -⟩ := h2.operation (isOperation_absorbTx ad) rfl
  refine ⟨h3, d3.trans ?_⟩
  rw [d2, d1]
  exact (List.append_nil _).trans (List.append_nil _)

/-- What `seal` and `open` deliver: the output of `crypt` on the engine the prologue leaves, then that of the squeeze on
the engine `crypt` leaves; as many bytes as the one's `OutLen` and as the tag has (45 R143, R144). -/
theorem run_aeadScript {key nonce ad : Bytes} {crypt : Transaction} {tagLen : Nat}
    (fits : key.length + 1 ≤ Config.P.rKeyedAbsorb)
    (wf : ∀ tx ∈ aeadScript key nonce ad crypt tagLen, tx.instr.wf = true)
    (o : IsOperation crypt.instr) (len : crypt.payload.length = payloadLen crypt.instr) (s : State) :
    let r := afterScript (aeadPrologue key nonce ad) s
    let X := (ruleOf crypt.instr crypt.payload r).out
    let tag := (ruleOf (.squeeze tagLen) [] (afterTx r crypt)).out
    ∃ u, Sys2Proof.core.run 5 (presentScript (aeadScript key nonce ad crypt tagLen) s) = .next u ∧
      u.dout = s.dout ++ X ++ tag ∧ X.length = outLen crypt.instr ∧ tag.length = tagLen := by
  intro r X tag
  obtain ⟨h, d⟩ := afterScript_aeadPrologue fits nonce ad s
  obtain ⟨h1, d1, l1⟩ := h.operation o len
  obtain ⟨-, d2, l2⟩ := h1.operation (isOperation_squeezeTx tagLen) rfl
  rw [d1, d] at d2
  exact ⟨_, run_script (aeadScript_framed wf len) s, d2, l1, l2⟩

/-- What was delivered, cut where the plaintext ends (45 R144). -/
theorem heldBack_expectedTag {before after : State} {m expected : Bytes}
    (h : after.dout = before.dout ++ m ++ expected) :
    heldBack before after m.length = m ∧ expectedTag before after m.length = expected := by
  unfold heldBack expectedTag
  rw [h, List.append_assoc, List.drop_left, List.take_left, List.drop_left]
  exact ⟨rfl, rfl⟩

/-- Settles O54: what is delivered is cut where the plaintext ends, and the tags are compared as in `openResult_eq`. -/
theorem openOutcome : Obligations.OpenOutcome := by
  intro s key nonce ad ct tag tagLen fits wf
  rw [aeadOpen_eq] at wf ⊢
  obtain ⟨u, run, dout, lm, lt⟩ := run_aeadScript fits wf (isOperation_decryptTx ct) rfl s
  obtain ⟨held, exp⟩ := heldBack_expectedTag dout
  rw [lm.trans (show outLen (decryptTx ct).instr = ct.length from rfl)] at held exp
  have verdict : openVerdict s u ct.length tag =
      if expectedTag s u ct.length = tag then .plaintext (heldBack s u ct.length) else .tagMismatch :=
    openResult_eq _ _ tag
  rw [held, exp] at verdict
  refine ⟨u, _, _, run, dout, lm, lt, held, exp, fun ne => ?_, fun eq => ?_⟩
  · rw [if_neg ne] at verdict
    rw [verdict, held]
    exact ⟨rfl, congrArg zeros lm, rfl⟩
  · rw [if_pos eq] at verdict
    rw [verdict, held]
    exact ⟨rfl, rfl, rfl⟩

/-- DECRYPT of what ENCRYPT delivered gives the message and leaves the same engine (44 R132). -/
theorem LiveKeyed.decrypt_encrypt {s : State} {M C : Bytes} (h : LiveKeyed s)
    (hC : (ruleOf (encryptTx M).instr (encryptTx M).payload s).out = C) :
    (ruleOf (decryptTx C).instr (decryptTx C).payload s).out = M ∧
      SameEngine (afterTx s (decryptTx C)) (afterTx s (encryptTx M)) := by
  have dec : ruleOf (decryptTx C).instr (decryptTx C).payload s = done M (crypt Config.P M false s).2 := by
    rw [← hC]
    exact congrArg (fun O : Bytes × State => done O.1 O.2) (crypt_roundtrip h.inv.width M)
  rw [h.afterTx_eq, h.afterTx_eq, dec]
  exact ⟨rfl, .refl _⟩

/-- A ciphertext as long as the message fits its field when the message does (30 R71). -/
theorem aeadScript_decrypt_wf {key nonce ad M C : Bytes} {tagLen : Nat} (len : C.length = M.length)
    (wf : ∀ tx ∈ aeadScript key nonce ad (encryptTx M) tagLen, tx.instr.wf = true) :
    ∀ tx ∈ aeadScript key nonce ad (decryptTx C) tagLen, tx.instr.wf = true := by
  simpa [aeadScript, aeadNew, encryptTx, decryptTx, Instr.wf, len] using wf

/-- Settles O50: both scripts run Crypt on the same engine, so `open` gets the message back and squeezes the tag from the
engine `seal` squeezes it from. -/
theorem aeadRoundTrip : Obligations.AeadRoundTrip := by
  intro s key nonce ad M tagLen fits wf
  rw [aeadSeal_eq] at wf
  obtain ⟨h, -⟩ := afterScript_aeadPrologue fits nonce ad s
  obtain ⟨t, sealed, dt, lC, lT⟩ := run_aeadScript fits wf (isOperation_encryptTx M) rfl s
  generalize hC : (ruleOf (encryptTx M).instr (encryptTx M).payload _).out = C at dt lC
  obtain ⟨plain, same⟩ := h.decrypt_encrypt hC
  obtain ⟨u, opened, du, -, -⟩ :=
    run_aeadScript fits (aeadScript_decrypt_wf lC wf) (isOperation_decryptTx C) rfl s
  rw [plain, (ruleOf_same same (.squeeze tagLen) []).2.1] at du
  exact ⟨C, _, t, u, lC, lT, sealed, dt, opened, du, (openResult_eq M _ _).trans (if_pos rfl)⟩

/-! ### The hash of one block -/

theorem afterTx_inv {tx : Transaction} {s : State} (h : Inv Config.P s)
    (len : tx.payload.length = payloadLen tx.instr) : Inv Config.P (afterTx s tx) :=
  exec_keeps_inv (h.setDin _) (exec_transaction len s)

/-- A message of one block on a Hash engine in phase Up is one Down (43 R120, 41 R93). -/
theorem afterTx_absorb_hash {s : State} {X : Bytes} (h : Inv Config.P s) (v : s.valid = true) (m : s.mode = .hash)
    (p : s.phase = .up) (len : X.length ≤ s.absorbRate) :
    ∃ B, XoredWith Config.P s.buf B (fun i =>
        X.getD i 0#8 ^^^ byteAt X.length 0x01#8 i ^^^ byteAt (Config.P.w - 1) 0x03#8 i) ∧
      afterTx s (absorbTx X) = { s with buf := B, phase := .down, rsp := s.rsp ++ [0x00000500#32] } := by
  obtain ⟨B, x, e⟩ := absorbOneBlock (s.setDin (X ++ s.din)) X s.din (h.setDin _) v rfl len
  have t := afterTx_eq_of_exec (tx := absorbTx X) rfl e
  simp only [freshBuf, freshCall, State.setDin_phase, State.setDin_mode, p, m, reduceCtorEq, if_true, if_false,
    List.append_nil] at x t
  exact ⟨B, x, by rw [t, ← m]; rfl⟩

/-- A digest of one block from a Hash engine in phase Down is one Up, which ignores its `cu` (43 R122, 41 R95, R96). -/
theorem afterTx_squeeze_hash {s : State} {n : Nat} (h : Inv Config.P s) (v : s.valid = true) (m : s.mode = .hash)
    (p : s.phase = .down) (len : n ≤ s.squeezeRate) :
    afterTx s (squeezeTx n) = { s with
      buf := Config.P.f s.buf, phase := .up, dout := s.dout ++ (Config.P.f s.buf).take n, perm := s.perm ++ [s.buf]
      rsp := s.rsp ++ [0x00000100#32] } := by
  obtain ⟨B, x, e⟩ := squeezeOneBlock s n _ _ h v len (.inl ⟨rfl, rfl⟩)
  have t := afterTx_eq_of_exec (tx := squeezeTx n) rfl e
  simp only [p, m, reduceCtorEq, if_false, byteAt_zero] at x t
  obtain rfl : B = s.buf := x.unique ⟨h.width, fun i _ => by rw [BitVec.xor_self, BitVec.xor_zero]⟩
  rw [t, ← m]

theorem afterTx_hashNew (s : State) :
    afterTx s ⟨.initHash, []⟩ = (freshHash Config.P s).rspWrite 0x00000100#32 :=
  afterTx_eq_of_exec rfl (initHashResult s)

/-- Settles O48: ABSORB finds a zero buffer in phase Up, and SQUEEZE the padded message in phase Down. -/
theorem hashOneBlock : Obligations.HashOneBlock := by
  intro s X n lX ln wfX wfn
  have framed : ∀ tx ∈ hashNew ++ hashUpdate X ++ hashFinalize n, tx.Framed := by
    have init : (Transaction.mk .initHash []).Framed := ⟨rfl, rfl⟩
    simp only [hashNew, hashUpdate, hashFinalize, List.cons_append, List.nil_append, List.forall_mem_cons]
    exact ⟨init, ⟨wfX, rfl⟩, ⟨wfn, rfl⟩, nofun⟩
  have script : afterScript (hashNew ++ hashUpdate X ++ hashFinalize n) s =
      afterTx (afterTx (afterTx s ⟨.initHash, []⟩) (absorbTx X)) (squeezeTx n) := rfl
  have inv := freshHash_rspWrite_inv s 0x00000100#32
  obtain ⟨B, x, absorbed⟩ := afterTx_absorb_hash (X := X) inv rfl rfl rfl lX
  have inv' := afterTx_inv (tx := absorbTx X) inv rfl
  rw [absorbed] at inv'
  have run := run_script framed s
  rw [script, afterTx_hashNew, absorbed, afterTx_squeeze_hash inv' rfl rfl rfl ln] at run
  refine ⟨B, _, x, run, rfl, ?_, rfl, rfl⟩
  exact (List.append_assoc _ _ _).trans (List.append_assoc _ _ _)

end Sys2Proof.Machine
end

section
/-! PROOFS of the family 60_exceptions: what each error of a command leaves, as an exact next state (60 R151 to R153), and
that errors are precise (60 R156). -/

namespace Sys2Proof.Machine

/-! ### How a raised error ends a command -/

/-- An error adds one response word to the state it is raised in, and nothing else (60 R156). -/
theorem raise_finish (e : Status) (s : State) : (raise e s).finish = s.rspWrite (responseWord e s) := by
  simp only [raise, finish_eq, List.append_nil]
  rfl

/-- So it leaves the engine and every port but `RSP` as they are where it is raised (60 R156). -/
theorem raise_finish_frame (e : Status) (s : State) :
    SameEngine s (raise e s).finish ∧ (raise e s).finish.perm = s.perm ∧ (raise e s).finish.dout = s.dout ∧
      (raise e s).finish.din = s.din ∧ (raise e s).finish.cmd = s.cmd := by
  rw [raise_finish]
  exact ⟨.refl s, rfl, rfl, rfl, rfl⟩

/-! ### The three errors of a command -/

/-- The response of an engine without an instance to an operation (30 R66, 60 R152). -/
theorem responseWord_noInstance {s : State} (v : s.valid = false) :
    responseWord .errNoInstance s = BitVec.ofNat 32 (0x03 + 512 * modeBit s.mode + 1024 * phaseBit s.phase) := by
  rw [responseWord, v]
  rfl

/-- The response of a Hash instance to a keyed command (30 R66, 60 R153). -/
theorem responseWord_hashMode {s : State} (v : s.valid = true) (m : s.mode = .hash) :
    responseWord .errMode s = BitVec.ofNat 32 (0x104 + 1024 * phaseBit s.phase) := by
  rw [responseWord, v, m]
  rfl

/-- Settles O12: an operation without an instance takes its payload and is refused. -/
theorem noInstanceError : Obligations.NoInstanceError := by
  intro i s o v h
  rw [exec_noInstance o v h, raise_finish, responseWord_noInstance (s := s.setDin (s.din.drop (payloadLen i))) v]
  rfl

/-- A keyed command on a Hash instance takes its payload and is refused (60 R153). -/
theorem exec_hashMode {i : Instr} {s : State} (k : IsKeyedOnly i) (v : s.valid = true) (m : s.mode = .hash)
    (h : PayloadReady i s) :
    exec i s = .next (raise .errMode (s.setDin (s.din.drop (payloadLen i)))).finish := by
  have e := replyOf_mode (rule := ruleOf i) (X := s.din.take (payloadLen i))
    (s := s.setDin (s.din.drop (payloadLen i))) ((needsKeyed_iff i).mpr k) v m
  rw [exec_eq, runCommand_ready h, e]

/-- Settles O13: the refusal of `exec_hashMode`, with the flags of a Hash instance. -/
theorem modeError : Obligations.ModeError := by
  intro i s k v m h
  rw [exec_hashMode k v m h, raise_finish, responseWord_hashMode (s := s.setDin (s.din.drop (payloadLen i))) v m]
  rfl

/-- A key block that does not fit is answered from a zeroised engine (42 R112, 60 R151). -/
theorem initKeyedRule_tooLong {P : Descriptor} {k d c : Nat} (h : k + d + 1 > P.rKeyedAbsorb) (D : Bytes) (s : State) :
    initKeyedRule P k d c D s = raise .errInvalidKey (zeroise P s) :=
  if_pos h

/-- Settles O14: INIT_KEYED passes every check, and its rule zeroises before it raises. -/
theorem invalidKeyError : Obligations.InvalidKeyError := by
  intro s k d c long ready
  rw [exec_construction (i := .initKeyed k d c) (by simp [IsOperation]) ready, ruleOf, initKeyedRule_tooLong long,
    raise_finish]
  rfl

/-! ### Errors are precise -/

/-- How a command ended can be read from `CODE`: 0x00 is `OK`, 0x03 and 0x04 are errors raised once the payload was taken,
0x01 is the error raised after zeroisation (30 R66, 60 R151 to R153). -/
theorem exec_code_cases {i : Instr} {s t : State} {w : Word} (e : exec i s = .next t) (hw : t.rsp = s.rsp ++ [w]) :
    w.extractLsb' 0 8 = 0x00#8 ∨
    ((w.extractLsb' 0 8 = 0x03#8 ∨ w.extractLsb' 0 8 = 0x04#8) ∧
      ∃ st, t = (raise st (s.setDin (s.din.drop (payloadLen i)))).finish) ∨
    (w.extractLsb' 0 8 = 0x01#8 ∧
      t = (raise .errInvalidKey (zeroise Config.P (s.setDin (s.din.drop (payloadLen i))))).finish) := by
  obtain ⟨-, r, rfl, o, hr⟩ := exec_next e
  have hrsp : r.finish.rsp = s.rsp ++ [responseWord r.status r.state] := congrArg (· ++ [_]) o.rsp
  have word : w = responseWord r.status r.state := by simpa using hw.symm.trans hrsp
  rw [word, responseWord_code]
  rcases hr with ⟨-, -, rfl⟩ | ⟨-, -, -, rfl⟩ | ⟨-, rfl⟩ | ⟨-, -, -, ok, -⟩
  · exact .inr (.inl ⟨.inl rfl, _, rfl⟩)
  · exact .inr (.inl ⟨.inr rfl, _, rfl⟩)
  · exact .inr (.inr ⟨rfl, rfl⟩)
  · exact .inl (ok ▸ rfl)

/-- Settles O11: every error is one `raise`, in the state as it stands for an illegal word and for codes 0x03 and 0x04, in
the zeroised state for code 0x01; the frame of a raised error does the rest. -/
theorem errorsArePrecise : Obligations.ErrorsArePrecise := by
  refine ⟨fun s t c e rest hc d ht => ?_, fun i s t w e hw => ?_⟩
  · rw [step_input hc] at ht
    cases (processCommand_illegal d _).symm.trans ht
    obtain ⟨same, perm, dout, din, cmd⟩ := raise_finish_frame .errIllegal (s.setCmd rest)
    refine ⟨same, perm, dout, din, cmd, responseWord .errIllegal (s.setCmd rest), rfl, ?_⟩
    rw [responseWord_code]
    rfl
  · rcases exec_code_cases e hw with code | ⟨code, st, rfl⟩ | ⟨code, rfl⟩
    · rw [code]
      exact ⟨(absurd · (by decide)), (absurd · (by decide))⟩
    · obtain ⟨same, perm, dout, -, cmd⟩ := raise_finish_frame st (s.setDin (s.din.drop (payloadLen i)))
      refine ⟨fun _ => ⟨same, perm, dout, cmd⟩, fun one => ?_⟩
      rw [one] at code
      exact absurd code (by decide)
    · obtain ⟨-, perm, dout, -, cmd⟩ := raise_finish_frame .errInvalidKey
        (zeroise Config.P (s.setDin (s.din.drop (payloadLen i))))
      have zeroised := zeroise_zeroised Config.P (s.setDin (s.din.drop (payloadLen i)))
      rw [code]
      exact ⟨(absurd · (by decide)), fun _ => ⟨zeroised, perm, dout, cmd⟩⟩

end Sys2Proof.Machine
end

section
/-! PROOFS of the family 70_reset_and_hazards: a reset during a command (70 R171), and what of a command the lengths and
flags decide (70 R179 to R181). -/

namespace Sys2Proof.Machine

/-! ### The run a reset during a command cuts short -/

/-- The command whose run `fullRun` cuts short: one payload byte more than was supplied, when the payload is short. -/
def fullInstr (i : Instr) (s : State) : Instr := shortened (supplied i s + 1) i

/-- The payload of that run: what was supplied, then zeros. -/
def fullPayload (i : Instr) (s : State) : Bytes :=
  s.din.take (supplied i s) ++ zeros (payloadLen (fullInstr i s) - supplied i s)

/-- The output bytes an aborted command has delivered (70 R171). -/
def abortedOut (i : Instr) (s : State) : Bytes :=
  ((fullRun i s).dout.drop s.dout.length).take (min (Config.freeNat s.freeCount) (deliverable i s))

/-- What a reset during a command leaves on the output ports and on `CMD`, and that it takes a front of the supplied
payload (70 R171). -/
theorem abortInstr_ports (i : Instr) (s : State) :
    (abortInstr i s).cmd = s.cmd ∧ (abortInstr i s).rsp = s.rsp ∧
      (abortInstr i s).dout = s.dout ++ abortedOut i s ∧
      (abortInstr i s).din = s.din.drop (min (Config.freeNat (s.freeCount + 2)) (supplied i s)) :=
  ⟨rfl, rfl, rfl, rfl⟩

theorem abortCommand_illegal {c : Word} {e : Illegal} (d : decode c = .illegal e) (s : State) :
    abortCommand c s = assertReset Config.P s := by
  simp only [abortCommand, d]

theorem abortCommand_instr {c : Word} {i : Instr} (d : decode c = .instr i) (s : State) :
    abortCommand c s = abortInstr i s := by
  simp only [abortCommand, d]

/-- A command over a shorter payload makes the same checks. -/
theorem shortened_needs (n : Nat) (i : Instr) :
    needsInstance (shortened n i) = needsInstance i ∧ needsKeyed (shortened n i) = needsKeyed i := by
  cases i <;> exact ⟨rfl, rfl⟩

/-- With all of its payload supplied a command is not shortened. -/
theorem shortened_of_le {n : Nat} {i : Instr} (h : payloadLen i ≤ n) : shortened n i = i := by
  cases i with
  | initHash | squeeze | squeezeKey | ratchet | zeroize => rfl
  | initKeyed k d c =>
    have : c ≤ n - (k + d) := by simp only [payloadLen] at h; omega
    simp only [shortened, Nat.min_eq_left this]
  | absorb => exact congrArg Instr.absorb (Nat.min_eq_left h)
  | encrypt => exact congrArg Instr.encrypt (Nat.min_eq_left h)
  | decrypt => exact congrArg Instr.decrypt (Nat.min_eq_left h)

theorem deliverable_le_outLen (i : Instr) (s : State) : deliverable i s ≤ outLen i := by
  cases i with
  | encrypt | decrypt => exact Nat.min_le_left _ _
  | initHash | initKeyed | absorb | squeeze | squeezeKey | ratchet | zeroize => exact Nat.le_refl _

theorem abortedOut_length (i : Instr) (s : State) : (abortedOut i s).length ≤ outLen i :=
  (List.length_take_le _ _).trans ((Nat.min_le_right _ _).trans (deliverable_le_outLen i s))

theorem suppliedBytes_length (i : Instr) (s : State) : (s.din.take (supplied i s)).length = supplied i s :=
  List.length_take_of_le (Nat.min_le_right _ _)

/-- That run has its payload, so it answers. -/
theorem fullRun_exec (i : Instr) (s : State) :
    exec (fullInstr i s) (s.setDin (fullPayload i s)) = .next (fullRun i s) := by
  have ready : PayloadReady (fullInstr i s) (s.setDin (fullPayload i s)) := by
    simp only [PayloadReady, State.setDin_din, fullPayload, List.length_append, suppliedBytes_length, zeros_length]
    omega
  obtain ⟨t, e, -⟩ := exec_ready ready
  have run : fullRun i s = t := by
    simp only [fullInstr, fullPayload] at e
    simp only [fullRun, e]
  rw [run, e]

/-- The payload `fullRun` gives its command starts with the bytes supplied. -/
theorem fullPayload_take (i : Instr) (s : State) (h : supplied i s ≤ payloadLen (fullInstr i s)) :
    ∃ Z, (fullPayload i s).take (payloadLen (fullInstr i s)) = s.din.take (supplied i s) ++ Z := by
  rw [fullPayload, List.take_append, suppliedBytes_length, List.take_of_length_le (by rwa [suppliedBytes_length])]
  exact ⟨_, rfl⟩

/-- What an aborted command has delivered starts the output of a command `j` that makes the same checks, if the
deliverable front of the one rule's output starts that of the other's. -/
theorem abortedOut_prefix {i j : Instr} {s u : State} (hu : exec j s = .next u)
    (hI : needsInstance j = needsInstance i) (hK : needsKeyed j = needsKeyed i)
    (out : ∀ D D', (ruleOf (fullInstr i s) ((fullPayload i s).take (payloadLen (fullInstr i s)))
          (s.setDin D)).out.take (deliverable i s) <+: (ruleOf j (s.din.take (payloadLen j)) (s.setDin D')).out) :
    s.dout ++ abortedOut i s <+: u.dout := by
  obtain ⟨fI, fK⟩ := shortened_needs (supplied i s + 1) i
  rw [exec_dout hu, List.prefix_append_right_inj, abortedOut, exec_dout (fullRun_exec i s)]
  simp only [State.setDin_dout, State.setDin_din, List.drop_left]
  refine (List.take_prefix_take_left (Nat.min_le_right _ _)).trans ?_
  rcases replyOf_cases (fullInstr i s) (ruleOf (fullInstr i s))
    ((fullPayload i s).take (payloadLen (fullInstr i s)))
    ((s.setDin (fullPayload i s)).setDin ((fullPayload i s).drop (payloadLen (fullInstr i s))))
    with ⟨-, -, e⟩ | ⟨-, -, e⟩ | ⟨hv, hm, e⟩
  · rw [e]; exact List.take_nil ▸ List.nil_prefix
  · rw [e]; exact List.take_nil ▸ List.nil_prefix
  · rw [e, replyOf_rule (s := s.setDin (s.din.drop (payloadLen j))) (fun n => hv (fI.trans (hI ▸ n)))
      (fun n => hm (fK.trans (hK ▸ n)))]
    exact out _ _

/-- With the payload supplied, the delivered bytes start the output of the command (70 R171). -/
theorem abortedOut_prefix_ready {i : Instr} {s u : State} (h : PayloadReady i s) (hu : exec i s = .next u) :
    s.dout ++ abortedOut i s <+: u.dout := by
  have sup : supplied i s = payloadLen i := Nat.min_eq_left h
  have full : fullInstr i s = i := shortened_of_le (by omega)
  have payload : fullPayload i s = s.din.take (payloadLen i) := by
    rw [fullPayload, full, sup, Nat.sub_self]; exact List.append_nil _
  refine abortedOut_prefix hu rfl rfl fun D D' => (List.take_prefix _ _).trans ?_
  have same : SameEngine (s.setDin D) (s.setDin D') := .refl s
  obtain ⟨-, out, -⟩ := ruleOf_same same i (s.din.take (payloadLen i))
  rw [full, payload, List.take_take, Nat.min_self, out]

/-- As many bytes of Crypt's output on a longer string as the shorter string has are the output on the shorter one
(20 R52). -/
theorem crypt_append_take {P : Descriptor} {s t : State} (w : s.BufWidth P) (same : SameEngine s t) (d : Bool)
    (X Z : Bytes) : (crypt P (X ++ Z) d t).1.take X.length = (crypt P X d s).1 := by
  obtain ⟨-, -, len⟩ := crypt_spec (P := P) X d s
  rw [← len w]
  exact (List.prefix_iff_eq_take.mp (crypt_prefix same d X Z)).symm

/-- What ENCRYPT and DECRYPT can have delivered is their output on the bytes supplied (20 R52). -/
theorem fullCrypt_take {i : Instr} {s : State} {n : Nat} (w : s.BufWidth Config.P) (d : Bool) (rest rest' : Bytes)
    (hi : i = .encrypt n ∨ i = .decrypt n) :
    (crypt Config.P ((fullPayload i s).take (payloadLen (fullInstr i s))) d (s.setDin rest)).1.take (supplied i s) =
      (crypt Config.P (s.din.take (payloadLen (shortened (supplied i s) i))) d (s.setDin rest')).1 := by
  have le : supplied i s ≤ n := by rcases hi with rfl | rfl <;> exact Nat.min_le_left _ _
  have short : payloadLen (shortened (supplied i s) i) = supplied i s := by
    rcases hi with rfl | rfl <;> exact Nat.min_eq_right le
  have full : supplied i s ≤ payloadLen (fullInstr i s) := by
    have : payloadLen (fullInstr i s) = min n (supplied i s + 1) := by rcases hi with rfl | rfl <;> rfl
    omega
  obtain ⟨Z, hZ⟩ := fullPayload_take i s full
  rw [short]
  have same : SameEngine (s.setDin rest') (s.setDin rest) := .refl s
  have out := crypt_append_take (P := Config.P) (s := s.setDin rest') w same d (s.din.take (supplied i s)) Z
  rwa [suppliedBytes_length, ← hZ] at out

/-- Whatever was supplied, the delivered bytes start the output of the command on that (20 R52, 70 R171). -/
theorem abortedOut_prefix_short {i : Instr} {s u : State} (h : Inv Config.P s)
    (hu : exec (shortened (supplied i s) i) s = .next u) : s.dout ++ abortedOut i s <+: u.dout := by
  obtain ⟨nI, nK⟩ := shortened_needs (supplied i s) i
  cases i with
  | squeeze | squeezeKey => exact abortedOut_prefix_ready (Nat.zero_le _) hu
  | initHash | initKeyed | absorb | ratchet | zeroize =>
    exact abortedOut_prefix hu nI nK fun _ _ => List.take_zero ▸ List.nil_prefix
  | encrypt =>
    exact abortedOut_prefix hu nI nK fun D D' => (fullCrypt_take h.width false D D' (.inl rfl)).symm ▸ List.prefix_rfl
  | decrypt =>
    exact abortedOut_prefix hu nI nK fun D D' => (fullCrypt_take h.width true D D' (.inr rfl)).symm ▸ List.prefix_rfl

/-- Settles O17: the delivered bytes are those of `abortedOut`, a front of the output of the whole command and of that on
the bytes supplied. -/
theorem resetDuringCommand : Obligations.ResetDuringCommand := by
  intro s c rest hc
  have hs : step s = .next (abortCommand c (s.setCmd rest)) := step_input hc
  have z := abortCommand_zeroised c (s.setCmd rest)
  cases d : decode c with
  | illegal e =>
    rw [abortCommand_illegal d] at hs z
    exact ⟨_, [], 0, hs, z, rfl, rfl, (List.append_nil _).symm, rfl, fun _ _ => ⟨rfl, rfl⟩, nofun⟩
  | instr i =>
    rw [abortCommand_instr d] at hs z
    obtain ⟨cmd, rsp, dout, din⟩ := abortInstr_ports i (s.setCmd rest)
    refine ⟨_, _, _, hs, z, cmd, rsp, dout, din, nofun, ?_⟩
    rintro _ ⟨rfl⟩
    refine ⟨Nat.min_le_right _ _, abortedOut_length i _, fun u hu => ?_, fun h u hu => ?_⟩
    · obtain ⟨ready, -⟩ := exec_next hu
      exact (abortedOut_prefix_ready (s := s.setCmd rest) ready hu).imp fun _ => Eq.symm
    · exact (abortedOut_prefix_short (h.setCmd rest) hu).imp fun _ => Eq.symm

/-! ### What lengths and flags decide -/

/-- What can be counted and read of a reply without its data: the status, the permutation calls and the output bytes, the
flags it leaves (70 R180). -/
structure Tally where
  status : Status
  calls : Nat
  out : Nat
  valid : Bool
  mode : Mode
  phase : Phase

/-- The tally of a reply `r` to a command taken in `s`. -/
def Reply.tally (s : State) (r : Reply) : Tally :=
  ⟨r.status, r.state.perm.length - s.perm.length, r.out.length, r.state.valid, r.state.mode, r.state.phase⟩

/-- The tally of the rule of a command that passed its checks, from the lengths, rates and flags (70 R181). -/
def ruleTally (P : Descriptor) (s : State) : Instr → Tally
  | .initHash => ⟨.ok, 0, 0, true, .hash, .up⟩
  | .initKeyed k d c =>
    if k + d + 1 > P.rKeyedAbsorb then ⟨.errInvalidKey, 0, 0, false, .hash, .up⟩ else ⟨.ok, c, 0, true, .keyed, .down⟩
  | .zeroize => ⟨.ok, 0, 0, false, .hash, .up⟩
  | i => ⟨.ok, callsOf P s i, outLen i, s.valid, s.mode, phaseAfter i⟩

/-- The tally of a command, in the order of checks of 60 R155. -/
def tallyOf (P : Descriptor) (s : State) (i : Instr) : Tally :=
  if needsInstance i && !s.valid then ⟨.errNoInstance, 0, 0, s.valid, s.mode, s.phase⟩
  else if needsKeyed i && decide (s.mode = .hash) then ⟨.errMode, 0, 0, s.valid, s.mode, s.phase⟩
  else ruleTally P s i

theorem raise_tally (e : Status) (s : State) : (raise e s).tally s = ⟨e, 0, 0, s.valid, s.mode, s.phase⟩ := by
  simp [Reply.tally, raise]

theorem Duplexed.tally {P : Descriptor} {s t : State} {k : Nat} (d : Duplexed P s t k) (Y : Bytes) :
    (done Y t).tally s = ⟨.ok, k, Y.length, s.valid, s.mode, t.phase⟩ := by
  simp [Reply.tally, done, d.perm_length, d.valid, d.mode]

theorem initKeyedRule_tally {k d c : Nat} {D : Bytes} (l : D.length = k + d + c) (s : State) :
    (ruleOf (.initKeyed k d c) D s).tally s = ruleTally Config.P s (.initKeyed k d c) := by
  rcases Nat.lt_or_ge Config.P.rKeyedAbsorb (k + d + 1) with long | fits
  · simp only [ruleOf, initKeyedRule_tooLong long, ruleTally, long, if_true]
    exact raise_tally .errInvalidKey (zeroise Config.P s)
  · obtain ⟨a, p⟩ := absorbKey_duplexed (P := Config.P) (s := freshKeyed Config.P s) l fits rfl
    simp only [ruleOf, initKeyedRule_fits fits, ruleTally, gt_iff_lt, Nat.not_lt.mpr fits, if_false]
    have h := a.tally []
    rw [p] at h
    exact h

/-- The rule of a command that passed its checks keeps to that tally. -/
theorem ruleOf_tally {i : Instr} {X : Bytes} {s : State} (h : Inv Config.P s)
    (hv : needsInstance i = true → s.valid = true) (hm : needsKeyed i = true → s.mode = .keyed)
    (l : X.length = payloadLen i) : (ruleOf i X s).tally s = ruleTally Config.P s i := by
  have operation (o : needsInstance i = true) :
      (ruleOf i X s).tally s = ⟨.ok, callsOf Config.P s i, outLen i, s.valid, s.mode, phaseAfter i⟩ := by
    obtain ⟨Y, t, e, d, hY, p⟩ := operation_rule h (hv o) o hm l
    rw [e, d.tally, hY, p]
  cases i with
  | initHash | zeroize => simp [ruleOf, initHashRule, zeroizeRule, Reply.tally, done, construct, zeroise_eq, ruleTally]
  | initKeyed => exact initKeyedRule_tally l s
  | absorb | encrypt | decrypt | squeeze | squeezeKey | ratchet => exact operation rfl

/-- What the two checks of 60 R155 leave when neither of them failed. -/
theorem checks_passed {i : Instr} {s : State} (hI : ¬ (needsInstance i && !s.valid) = true)
    (hK : ¬ (needsKeyed i && decide (s.mode = .hash)) = true) :
    (needsInstance i = true → s.valid = true) ∧ (needsKeyed i = true → s.mode = .keyed) := by
  refine ⟨by simpa using hI, fun n => ?_⟩
  cases m : s.mode with
  | hash => simp [n, m] at hK
  | keyed => rfl

/-- The reply of a command has the command's tally, whichever check or rule it comes from. -/
theorem replyOf_tally {i : Instr} {X : Bytes} {s : State} (h : Inv Config.P s) (l : X.length = payloadLen i) :
    (replyOf i (ruleOf i) X s).tally s = tallyOf Config.P s i := by
  unfold replyOf tallyOf
  split
  · exact raise_tally _ s
  · split
    · exact raise_tally _ s
    · next hI hK =>
      obtain ⟨hv, hm⟩ := checks_passed hI hK
      exact ruleOf_tally h hv hm l

/-- A command either fails a check, which calls no permutation and gives no output, or has its rule's tally. -/
theorem tallyOf_cases (P : Descriptor) (s : State) (i : Instr) :
    (∃ e, e ≠ .ok ∧ tallyOf P s i = ⟨e, 0, 0, s.valid, s.mode, s.phase⟩) ∨
    ((needsInstance i = true → s.valid = true) ∧ (needsKeyed i = true → s.mode = .keyed) ∧
      tallyOf P s i = ruleTally P s i) := by
  unfold tallyOf
  split
  · exact .inl ⟨.errNoInstance, by decide, rfl⟩
  · split
    · exact .inl ⟨.errMode, by decide, rfl⟩
    · next hI hK =>
      obtain ⟨hv, hm⟩ := checks_passed hI hK
      exact .inr ⟨hv, hm, rfl⟩

/-- The tally depends on the engine's flags and rates only. -/
theorem tallyOf_congr (P : Descriptor) {s s' : State} (i : Instr) (hv : s.valid = s'.valid) (hm : s.mode = s'.mode)
    (hp : s.phase = s'.phase) (ha : s.absorbRate = s'.absorbRate) (hs : s.squeezeRate = s'.squeezeRate) :
    tallyOf P s i = tallyOf P s' i := by
  have rule : ruleTally P s i = ruleTally P s' i := by
    cases i <;> simp only [ruleTally, callsOf, hv, hm, hp, ha, hs]
  simp only [tallyOf, rule, hv, hm, hp]

theorem replyOf_onward (i : Instr) (X : Bytes) (s : State) : Onward s (replyOf i (ruleOf i) X s).state := by
  rcases replyOf_cases i (ruleOf i) X s with ⟨-, -, e⟩ | ⟨-, -, e⟩ | ⟨-, -, e⟩
  · rw [e]; exact .refl s
  · rw [e]; exact .refl s
  · rw [e]; exact (ruleOf_status i X s).1

/-- Every command ends with one reply, which has the command's tally and only appends to the output ports. -/
theorem exec_tally {i : Instr} {s t : State} (h : Inv Config.P s) (e : exec i s = .next t) :
    ∃ r : Reply, t = r.finish ∧ Onward (s.setDin (s.din.drop (payloadLen i))) r.state ∧
      r.tally s = tallyOf Config.P s i := by
  rw [exec_eq] at e
  obtain ⟨ready, rfl⟩ := runCommand_next e
  exact ⟨_, rfl, replyOf_onward i _ _,
    (replyOf_tally (h.setDin _) (List.length_take_of_le ready)).trans (tallyOf_congr Config.P i rfl rfl rfl rfl rfl)⟩

/-- What a command sends on `PERM` and delivers on `DOUT`, counted. -/
theorem exec_lengths {i : Instr} {s t : State} (h : Inv Config.P s) (e : exec i s = .next t) :
    t.perm.length = s.perm.length + (tallyOf Config.P s i).calls ∧
      t.dout.length = s.dout.length + (tallyOf Config.P s i).out := by
  obtain ⟨r, rfl, o, tally⟩ := exec_tally h e
  obtain ⟨c, hc⟩ := o.perm
  simp [← tally, finish_eq, Reply.tally, o.dout, hc]

/-! ### Permutation calls -/

theorem ruleTally_calls (P : Descriptor) (s : State) (i : Instr) :
    (ruleTally P s i).calls = if (ruleTally P s i).status = .ok then callsOf P s i else 0 := by
  cases i with
  | initKeyed k d c =>
    simp only [ruleTally]
    split <;> rfl
  | initHash | absorb | encrypt | decrypt | squeeze | squeezeKey | ratchet | zeroize => rfl

/-- A command that ends with `OK` makes the calls of 70 R181, any other none. -/
theorem tallyOf_calls (P : Descriptor) (s : State) (i : Instr) :
    (tallyOf P s i).calls = if (tallyOf P s i).status = .ok then callsOf P s i else 0 := by
  rcases tallyOf_cases P s i with ⟨e, err, h⟩ | ⟨-, -, h⟩
  · rw [h]; exact (if_neg err).symm
  · rw [h]; exact ruleTally_calls P s i

/-- Settles O45: an illegal word's error is precise; a command's calls are those of its tally, and `CODE` says whether it
ended with `OK`. -/
theorem permutationCalls : Obligations.PermutationCalls := by
  obtain ⟨illegal, -⟩ := errorsArePrecise
  refine ⟨fun s t c e rest hc d ht => ?_, fun i s t w h e hw => ?_⟩
  · obtain ⟨-, perm, -⟩ := illegal s t c e rest hc d ht
    exact perm
  · obtain ⟨calls, -⟩ := exec_lengths h e
    obtain ⟨r, rfl, o, tally⟩ := exec_tally h e
    have hrsp : r.finish.rsp = s.rsp ++ [responseWord r.status r.state] := congrArg (· ++ [_]) o.rsp
    have word : w = responseWord r.status r.state := by simpa using hw.symm.trans hrsp
    have status : r.status = (tallyOf Config.P s i).status := congrArg Tally.status tally
    rw [calls, tallyOf_calls]
    simp only [word, responseWord_code_eq_zero_iff, status]

/-! ### Constant time -/

/-- With the same `valid` and `mode` two engines have the same rates (10 R31). -/
theorem Inv.rates_eq {P : Descriptor} {s s' : State} (h : Inv P s) (h' : Inv P s') (hv : s.valid = s'.valid)
    (hm : s.mode = s'.mode) : s.absorbRate = s'.absorbRate ∧ s.squeezeRate = s'.squeezeRate := by
  cases v : s.valid with
  | false =>
    obtain ⟨-, -, -, ha, hs, -⟩ := h.noInstance v
    obtain ⟨-, -, -, ha', hs', -⟩ := h'.noInstance (hv ▸ v)
    exact ⟨ha.trans ha'.symm, hs.trans hs'.symm⟩
  | true =>
    have e := (h.rates v).trans (hm ▸ (h'.rates (hv ▸ v)).symm)
    exact Prod.ext_iff.mp e

theorem responseWord_congr (st : Status) {s s' : State} (hv : s.valid = s'.valid) (hm : s.mode = s'.mode)
    (hp : s.phase = s'.phase) : responseWord st s = responseWord st s' := by
  simp only [responseWord, hv, hm, hp]

/-- Settles O46: with the same flags the rates are the same, hence the tally, which has all that is compared. -/
theorem lengthsDoNotDependOnData : Obligations.LengthsDoNotDependOnData := by
  intro i s s' t t' h h' hv hm hp ready ready' e e'
  obtain ⟨ha, hs⟩ := h.rates_eq h' hv hm
  obtain ⟨r, rfl, o, tally⟩ := exec_tally h e
  obtain ⟨r', rfl, o', tally'⟩ := exec_tally h' e'
  rw [tallyOf_congr Config.P i hv hm hp ha hs, ← tally'] at tally
  simp only [Reply.tally, Tally.mk.injEq] at tally
  obtain ⟨status, calls, out, valid, mode, phase⟩ := tally
  have word : responseWord r.status r.state = responseWord r'.status r'.state := by
    rw [status, responseWord_congr _ valid mode phase]
  refine ⟨calls, ?_, ?_, ?_, valid, mode, phase⟩
  · simp [finish_eq, o.dout, o'.dout, out]
  · simp only [PayloadReady] at ready ready'
    simp only [finish_eq, o.din, o'.din, State.setDin_din, List.length_drop]
    omega
  · simp [finish_eq, o.rsp, o'.rsp, word]

/-! ### The rate of the output -/

/-- The blocks of an output hold it (41 R91). -/
theorem le_rate_mul_numBlocks {r : Nat} (hr : 0 < r) (l : Nat) : l ≤ r * numBlocks l r :=
  (numBlocks_bounds hr l).1.trans_eq (Nat.mul_comm _ _)

/-- The rule of a command that passed its checks makes a permutation call for every `squeeze_rate` bytes of its output, in
Keyed mode also when it goes by `r_keyed_squeeze` (10 R24, 70 R179). -/
theorem ruleTally_rate {P : Descriptor} {s : State} {i : Instr} (h : Inv P s)
    (hv : needsInstance i = true → s.valid = true) (hm : needsKeyed i = true → s.mode = .keyed) :
    (ruleTally P s i).out ≤ s.squeezeRate * (ruleTally P s i).calls := by
  have squeeze (n : Nat) (v : s.valid = true) : n ≤ s.squeezeRate * numBlocks n s.squeezeRate := by
    obtain ⟨-, hr, -⟩ := h.rate_bounds v
    exact le_rate_mul_numBlocks hr n
  have crypt (n : Nat) (v : s.valid = true) (m : s.mode = .keyed) :
      n ≤ s.squeezeRate * (phaseBit s.phase + numBlocks n P.rKeyedSqueeze) := by
    rw [← (h.keyed_rates v m).2, Nat.mul_add]
    exact (squeeze n v).trans (Nat.le_add_left _ _)
  cases i with
  | squeeze n | squeezeKey n => exact squeeze n (hv rfl)
  | encrypt n | decrypt n => exact crypt n (hv rfl) (hm rfl)
  | initHash | absorb | ratchet | zeroize => exact Nat.zero_le _
  | initKeyed =>
    simp only [ruleTally]
    split <;> exact Nat.zero_le _

/-- So does every command, since an error gives no output. -/
theorem tallyOf_rate {P : Descriptor} {s : State} (h : Inv P s) (i : Instr) :
    (tallyOf P s i).out ≤ s.squeezeRate * (tallyOf P s i).calls := by
  rcases tallyOf_cases P s i with ⟨e, -, t⟩ | ⟨hv, hm, t⟩
  · rw [t]; exact Nat.zero_le _
  · rw [t]; exact ruleTally_rate h hv hm

/-- Settles O47: the bytes out and the calls are those of the command's tally. -/
theorem outputIsRateLimited : Obligations.OutputIsRateLimited := by
  intro i s t h e
  obtain ⟨calls, out⟩ := exec_lengths h e
  rw [calls, out, Nat.add_sub_cancel_left, Nat.add_sub_cancel_left]
  exact tallyOf_rate h i

end Sys2Proof.Machine
end
